-- ==== Sys2Proof/Word.lean ====
section
/-! DEFINITION. The value types of the HUFF codec block (00_scope.md R6, R8). -/

namespace Sys2Proof

/-- A Bit is the type {0, 1} (R8): `false` is 0 and `true` is 1. -/
abbrev Bit := Bool

/-- A Byte, and a symbol: an unsigned 8-bit number (R6 SYM_WIDTH, R8). -/
abbrev Byte := BitVec 8

/-- The 24-bit operand field OPD of a command word (30_encoding.md R80). -/
abbrev Opd := BitVec 24

/-- A host register value or a command word: 32 bits (R6 REG_WIDTH, CMD_WIDTH). -/
abbrev Word := BitVec 32

end Sys2Proof
end

