-- ==== Sys2Proof/Syntax.lean ====
section
/-! DEFINITION. The commands of the block, one constructor per row of the opcode table (30_encoding.md R83). -/

namespace Sys2Proof

/-- A command. A value-operand command carries its whole 24-bit operand: a value out of range still spells the command
and fails its range check when it runs (30_encoding.md R81, R82, R84). -/
inductive Instr where
  | nop
  | softReset
  | clearErr
  | pushSym (v : Opd)
  | pushBit (v : Opd)
  | pushByte (v : Opd)
  | pushLeaf (v : Opd)
  | popSym
  | popBit
  | popByte
  | popLeaf
  | treeLoad
  | treeStore
  | treeClear
  | encode
  | decode
  | pack
  | unpack
  | setFinal (v : Opd)
  deriving DecidableEq, Repr

/-- What a 32-bit word is, exactly one of three (30_encoding.md R85). -/
inductive Decoded where
  /-- The word spells no command (R84). -/
  | illegal (opc : Byte)
  /-- The word spells a command whose operand is out of range (R82). -/
  | badOperand (i : Instr)
  /-- The word spells a command with a legal operand. -/
  | cmd (i : Instr)
  deriving DecidableEq, Repr

end Sys2Proof
end

