-- ==== Sys2Proof/WellFormed.lean ====
section
/-! DEFINITION. Which commands have a legal operand: the range table of 30_encoding.md R82. -/

namespace Sys2Proof

/-- R82: PUSH_BIT takes 0 or 1, the other pushes 0..255, SET_FINAL 1..8.
A no-operand command is always well formed. -/
def Instr.wellFormed : Instr → Bool
  | .nop => true
  | .softReset => true
  | .clearErr => true
  | .pushSym v => decide (v.toNat ≤ 255)
  | .pushBit v => decide (v.toNat = 0 ∨ v.toNat = 1)
  | .pushByte v => decide (v.toNat ≤ 255)
  | .pushLeaf v => decide (v.toNat ≤ 255)
  | .popSym => true
  | .popBit => true
  | .popByte => true
  | .popLeaf => true
  | .treeLoad => true
  | .treeStore => true
  | .treeClear => true
  | .encode => true
  | .decode => true
  | .pack => true
  | .unpack => true
  | .setFinal v => decide (1 ≤ v.toNat ∧ v.toNat ≤ 8)

end Sys2Proof
end

