-- ==== Sys2Proof/Decode.lean ====
section
/-! DEFINITION. The command decoder and the encoder (30_encoding.md R80 to R86). -/

namespace Sys2Proof

/-- R80: OPC is `w[7:0]`. -/
def opcOf (w : Word) : Byte := w.extractLsb' 0 8

/-- R80: OPD is `w[31:8]`. -/
def opdOf (w : Word) : Opd := w.extractLsb' 8 24

/-- R81, R84: a no-operand opcode spells its command only with OPD = 0. -/
def noOperand (v : Opd) (i : Instr) : Option Instr := if v = 0 then some i else none

/-- The opcode map of R83: the command an opcode and an operand field spell. -/
def instrOf (opc : Byte) (v : Opd) : Option Instr :=
  match opc with
  | 0x00#8 => noOperand v .nop
  | 0x01#8 => noOperand v .softReset
  | 0x02#8 => noOperand v .clearErr
  | 0x10#8 => some (.pushSym v)
  | 0x11#8 => some (.pushBit v)
  | 0x12#8 => some (.pushByte v)
  | 0x13#8 => some (.pushLeaf v)
  | 0x18#8 => noOperand v .popSym
  | 0x19#8 => noOperand v .popBit
  | 0x1A#8 => noOperand v .popByte
  | 0x1B#8 => noOperand v .popLeaf
  | 0x20#8 => noOperand v .treeLoad
  | 0x21#8 => noOperand v .treeStore
  | 0x22#8 => noOperand v .treeClear
  | 0x30#8 => noOperand v .encode
  | 0x31#8 => noOperand v .decode
  | 0x40#8 => noOperand v .pack
  | 0x41#8 => noOperand v .unpack
  | 0x42#8 => some (.setFinal v)
  | _ => none

/-- The command a word spells, whatever its operand; `none` is an illegal word (R84). -/
def decodeInstr (w : Word) : Option Instr := instrOf (opcOf w) (opdOf w)

/-- R85: the total classification of a word. -/
def decode (w : Word) : Decoded :=
  match decodeInstr w with
  | none => .illegal (opcOf w)
  | some i => if i.wellFormed then .cmd i else .badOperand i

/-- The opcode of a command (R83). -/
def Instr.opcode : Instr → Byte
  | .nop => 0x00
  | .softReset => 0x01
  | .clearErr => 0x02
  | .pushSym _ => 0x10
  | .pushBit _ => 0x11
  | .pushByte _ => 0x12
  | .pushLeaf _ => 0x13
  | .popSym => 0x18
  | .popBit => 0x19
  | .popByte => 0x1A
  | .popLeaf => 0x1B
  | .treeLoad => 0x20
  | .treeStore => 0x21
  | .treeClear => 0x22
  | .encode => 0x30
  | .decode => 0x31
  | .pack => 0x40
  | .unpack => 0x41
  | .setFinal _ => 0x42

/-- The operand field of a command: 0 for a no-operand command (R81). -/
def Instr.operand : Instr → Opd
  | .nop => 0
  | .softReset => 0
  | .clearErr => 0
  | .pushSym v => v
  | .pushBit v => v
  | .pushByte v => v
  | .pushLeaf v => v
  | .popSym => 0
  | .popBit => 0
  | .popByte => 0
  | .popLeaf => 0
  | .treeLoad => 0
  | .treeStore => 0
  | .treeClear => 0
  | .encode => 0
  | .decode => 0
  | .pack => 0
  | .unpack => 0
  | .setFinal v => v

/-- R80: `w = (OPD << 8) | OPC`. -/
def encodeWord (opc : Byte) (v : Opd) : Word := v.setWidth 32 <<< 8 ||| opc.setWidth 32

/-- The word of a command. A command is exactly one word (R86). -/
def encode (i : Instr) : Word := encodeWord i.opcode i.operand

/-- R62: on a byte-addressed bus, byte lane k of a word holds bits `[8k+7:8k]`. -/
def laneByte (w : Word) (k : Nat) : Byte := w.extractLsb' (8 * k) 8

/-- R62: the word whose byte lanes 0 to 3, from the lowest address up, are given. -/
def wordOfLanes (b0 b1 b2 b3 : Byte) : Word := b3 ++ b2 ++ b1 ++ b0

/-- The command four bytes in lane order spell; any other number of bytes is no command word (R86). -/
def decodeBytes : List Byte → Option Instr
  | [b0, b1, b2, b3] => decodeInstr (wordOfLanes b0 b1 b2 b3)
  | _ => none

/-- The decoder on a word numbered as the opcode table numbers it: a command is one 32-bit word, so the bits above `nbits`
are 0 and the word is `w` itself (log entry 7). -/
def decodeTableWord (nbits w : Nat) : Option Instr :=
  if nbits ≤ 32 ∧ w < 2 ^ 32 then
    let v : Word := BitVec.ofNat 32 w
    decodeBytes [laneByte v 0, laneByte v 1, laneByte v 2, laneByte v 3]
  else none

end Sys2Proof
end

