-- ==== Sys2Proof/Config.lean ====
section
/-! DEFINITION. What an instance of the block and its host fix: the sizes of 00_scope.md R6 and the open parameters of R7. -/

namespace Sys2Proof

/-- R6 MAX_LEAVES: distinct 8-bit symbols. -/
def maxLeaves : Nat := 256

/-- R6 MIN_LEAVES. -/
def minLeaves : Nat := 2

/-- R6 MAX_NODES. -/
def maxNodes : Nat := 511

/-- R6 MAX_CODE_LEN. -/
def maxCodeLen : Nat := 255

/-- R6 WINDOW: the register window's size in bytes. -/
def windowBytes : Nat := 64

/-- R6 BITS_PER_BYTE. -/
def bitsPerByte : Nat := 8

/-- The open parameters of one block instance (R7). They are configuration and not state (10_state.md R20): every rule of
a command that needs one takes them as an argument, as R7 asks. -/
structure Params where
  /-- SYMQ_CAP, in symbols. -/
  symqCap : Nat
  /-- BITQ_CAP, in bits. -/
  bitqCap : Nat
  /-- BYTEQ_CAP, in bytes. -/
  byteqCap : Nat
  /-- LEAFQ_CAP, in symbols. -/
  leafqCap : Nat
  /-- HUFF_BASE, the window's base address on the host bus. -/
  base : Nat
  deriving DecidableEq, Repr

/-- The constraints R7 puts on the parameters of an instance. -/
abbrev Params.Legal (p : Params) : Prop :=
  (1 ≤ p.symqCap ∧ p.symqCap ≤ 2 ^ 32 - 1) ∧
  (511 ≤ p.bitqCap ∧ p.bitqCap ≤ 2 ^ 32 - 1) ∧
  (1 ≤ p.byteqCap ∧ p.byteqCap ≤ 2 ^ 32 - 1) ∧
  (256 ≤ p.leafqCap ∧ p.leafqCap ≤ 2 ^ 32 - 1) ∧
  p.base % 64 = 0

/-- DESIGN CHOICE (log entry 2, unsafe): the parameters of the one instance that `Machine.exec` and `Machine.step` are, whose types
leave no room for an argument (log entry 1). The largest capacities R7 admits; R7 fixes none. No statement depends on these values but the second half of
`ResetMeetsTheInvariant`, that they are legal. -/
def blockParams : Params :=
  { symqCap := 2 ^ 32 - 1, bitqCap := 2 ^ 32 - 1, byteqCap := 2 ^ 32 - 1, leafqCap := 2 ^ 32 - 1, base := 0 }

/-- TIE_ORDER of the host tree builder (R7; 80_host_interface.md R268). -/
inductive TieOrder where
  | fifo
  | newestFirst
  deriving DecidableEq, Repr

/-- SEED_ORDER of the host tree builder (R7; 80_host_interface.md R267). -/
inductive SeedOrder where
  | ascending
  | firstSeen
  deriving DecidableEq, Repr

/-- MAGIC_BYTES, the container's tag, a sequence of four bytes (R7; 80_host_interface.md R272). -/
structure Magic where
  m0 : Byte
  m1 : Byte
  m2 : Byte
  m3 : Byte
  deriving DecidableEq, Repr

/-- The open parameters of the host-side reference (R7). Every host function takes them as an argument. -/
structure HostParams where
  magic : Magic
  tieOrder : TieOrder
  seedOrder : SeedOrder
  foldCase : Bool
  deriving DecidableEq, Repr

/-- R7's defaults, for a text: FIFO, ASCENDING and folding on. MAGIC_BYTES has no default. -/
def HostParams.textDefault (m : Magic) : HostParams :=
  { magic := m, tieOrder := .fifo, seedOrder := .ascending, foldCase := true }

/-- R7's defaults, for binary content: folding off. -/
def HostParams.binaryDefault (m : Magic) : HostParams :=
  { magic := m, tieOrder := .fifo, seedOrder := .ascending, foldCase := false }

end Sys2Proof
end

