-- ==== Sys2Proof/Machine/State.lean ====
section
/-! DEFINITION. The block's architectural state (10_state.md R20) and why a step can stop. -/

namespace Sys2Proof.Machine

/-- A tree value: a node has 0 or 2 children, never 1 (00_scope.md R11). -/
inductive Tree where
  | leaf (sym : Byte)
  | node (zero one : Tree)
  deriving DecidableEq, Repr

/-- What TREE holds (10_state.md R28). -/
inductive TreeReg where
  | empty
  | loaded (t : Tree)
  deriving DecidableEq, Repr

/-- The error kinds (60_exceptions.md R200). The block raises seven of them; the others are the host's. -/
inductive ErrorKind where
  | invalidBitValue
  | insufficientSymbols
  | unknownSymbol
  | malformedTree
  | badFormat
  | truncated
  | invalidSymbolCount
  | ioError
  | unexpectedEof
  | illegalCommand
  | invalidOperand
  | overflow
  deriving DecidableEq, Repr

/-- Why the machine can stop. A failing command is no fault of this kind: it is a next state (60_exceptions.md R201). -/
inductive Fault where
  /-- Raised by `step` alone, in a state with BUSY = 0: there the engine has no step (70_reset_and_hazards.md R241).
  Safe: the model stops where the hardware stays idle (log entry 3). -/
  | engineIdle
  deriving DecidableEq, Repr

/-- What the model has no transition for. -/
inductive Refusal where
  /-- Raised by an arm of `exec` whose command has no meaning; no arm does. Safe. -/
  | notModelled (mnemonic : String)
  /-- Raised by a host access that is not 32 bits wide, not aligned, or outside the window
  (20_memory.md R61: "a model refuses it"). Safe (log entry 8). -/
  | accessOutsideSpec
  deriving DecidableEq, Repr

/-- The state record of R20: exactly its fields. -/
structure State where
  /-- SYMQ, head first (R23). -/
  symq : List Byte
  /-- BITQ, head first (R24). -/
  bitq : List Bit
  /-- BYTEQ, head first (R25). -/
  byteq : List Byte
  /-- LEAFQ, head first (R26). -/
  leafq : List Byte
  /-- TREE (R28). -/
  tree : TreeReg
  /-- FINAL_VALID, a natural 1..8 (R33). -/
  finalValid : Nat
  /-- RESULT (R34). -/
  result : Word
  /-- ERR (R35). -/
  err : Bool
  /-- ERRCODE (R35). -/
  errCode : Byte
  /-- ERR_OPC (R35). -/
  errOpc : Byte
  /-- DANGLING (R36). -/
  dangling : Bool
  /-- DROP_COUNT (R36). -/
  dropCount : Word
  /-- OVERRUN (R37). -/
  overrun : Bool
  /-- BUSY (R38). -/
  busy : Bool
  /-- PEND, meaningful only while BUSY = 1 (R38). -/
  pend : Word
  deriving DecidableEq, Repr

/-- The state right after hardware reset: every value is 70_reset_and_hazards.md R230's. -/
def State.reset : State :=
  { symq := [], bitq := [], byteq := [], leafq := [], tree := .empty, finalValid := 8, result := 0,
    err := false, errCode := 0, errOpc := 0, dangling := false, dropCount := 0, overrun := false,
    busy := false, pend := 0 }

end Sys2Proof.Machine
end

