-- ==== Sys2Proof/Machine/Ops.lean ====
section
/-! DEFINITION. The named operations over the state: the updates, error entry and return (60_exceptions.md R201, R205),
the ERR gate (R203), the execution skeleton (40_control.md R100), push and pop (41_queue.md R110, R115), the command latch. -/

namespace Sys2Proof.Machine

/-- Queue and scalar updates. Each writes the one element it names. -/
def State.setSymq (s : State) (q : List Byte) : State := { s with symq := q }
def State.setBitq (s : State) (q : List Bit) : State := { s with bitq := q }
def State.setByteq (s : State) (q : List Byte) : State := { s with byteq := q }
def State.setLeafq (s : State) (q : List Byte) : State := { s with leafq := q }
def State.setTree (s : State) (t : TreeReg) : State := { s with tree := t }
def State.setFinalValid (s : State) (f : Nat) : State := { s with finalValid := f }
def State.setResult (s : State) (v : Word) : State := { s with result := v }

/-- 43_codec.md R153: DROP_COUNT <- k; DANGLING <- (k != 0) ? 1 : 0. -/
def State.setDropped (s : State) (k : Nat) : State :=
  { s with dropCount := BitVec.ofNat 32 k, dangling := decide (k ≠ 0) }

/-- R200: the ERRCODE value of an error kind. -/
def ErrorKind.code : ErrorKind → Byte
  | .invalidBitValue => 0x01
  | .insufficientSymbols => 0x02
  | .unknownSymbol => 0x03
  | .malformedTree => 0x04
  | .badFormat => 0x05
  | .truncated => 0x06
  | .invalidSymbolCount => 0x07
  | .ioError => 0x08
  | .unexpectedEof => 0x09
  | .illegalCommand => 0x0A
  | .invalidOperand => 0x0B
  | .overflow => 0x0C

/-- R201, R205: error entry. Every other state element keeps its value. -/
def fail (e : ErrorKind) (opc : Byte) (s : State) : State :=
  { s with err := true, errCode := e.code, errOpc := opc }

/-- 40_control.md R103, R205: return from an error. -/
def acknowledge (s : State) : State :=
  { s with err := false, errCode := 0, errOpc := 0, overrun := false }

/-- R203: NOP, SOFT_RESET and CLEAR_ERR are exempt from the ERR gate. -/
def exempt (opc : Byte) : Bool := opc == 0x00 || opc == 0x01 || opc == 0x02

/-- R203: whether the engine runs a command with this opcode, and does not discard it. -/
def gateOpen (opc : Byte) (s : State) : Bool := !s.err || exempt opc

/-- `require c else e`, and then the rest of the rule (00_scope.md R10). -/
def require (c : Bool) (e : ErrorKind) (rest : Except ErrorKind State) : Except ErrorKind State :=
  if c then rest else .error e

/-- R100: commit installs what the rule assigned; raise enters the error with nothing else changed. -/
def settle (opc : Byte) (s : State) : Except ErrorKind State → State
  | .ok t => t
  | .error e => fail e opc s

/-- R100: a command with opcode `opc` whose rule ends in `r`: discarded by the ERR gate, or settled.
Every command answers a next state. -/
def runRule (opc : Byte) (s : State) (r : Except ErrorKind State) : Host.Outcome State Fault Refusal :=
  .next (if gateOpen opc s then settle opc s r else s)

/-- 30_encoding.md R84: executing a word that spells no command. -/
def illegalWord (opc : Byte) (s : State) : Host.Outcome State Fault Refusal :=
  runRule opc s (.error .illegalCommand)

/-- 41_queue.md R110: push `v` at the tail of a queue of capacity `cap`, whose update is `install`. -/
def push {α : Type} (q : List α) (cap : Nat) (v : α) (install : List α → State) : Except ErrorKind State :=
  require (decide (q.length + 1 ≤ cap)) .overflow (.ok (install (q ++ [v])))

/-- 41_queue.md R115: pop the head of a queue whose update is `install` into RESULT, zero-extended. -/
def pop {α : Type} (q : List α) (zext : α → Word) (install : List α → State) : Except ErrorKind State :=
  match q with
  | [] => .error .unexpectedEof
  | x :: rest => .ok ((install rest).setResult (zext x))

/-- R115: zext_32 of a Byte. -/
def zextByte (b : Byte) : Word := b.setWidth 32

/-- R115: zext_32 of a Bit. -/
def zextBit (b : Bit) : Word := if b then 1 else 0

/-- 10_state.md R38: an accepted CMD write latches the word. -/
def State.latch (s : State) (w : Word) : State := { s with pend := w, busy := true }

/-- 70_reset_and_hazards.md R241: `BUSY <- 0`, the end of an engine step. PEND keeps its word (log entry 5). -/
def State.release (s : State) : State := { s with busy := false }

/-- 10_state.md R38: the word the engine's next step executes. -/
def State.pendingWord (s : State) : Word := s.pend

/-- R241: `BUSY <- 0` after the execution, as part of the one atomic transition. -/
def retire : Host.Outcome State Fault Refusal → Host.Outcome State Fault Refusal
  | .next s => .next s.release
  | .fault f => .fault f
  | .refused r => .refused r

end Sys2Proof.Machine
end

