-- ==== Sys2Proof/Machine/Tree.lean ====
section
/-! DEFINITION. The functions on trees that the rules use: 00_scope.md R11, 10_state.md R29 to R31, 42_tree.md R130 and R132. -/

namespace Sys2Proof.Machine

/-- R11: the leaf symbols in pre-order. -/
def Tree.leaves : Tree → List Byte
  | .leaf s => [s]
  | .node z o => z.leaves ++ o.leaves

/-- R11: the number of nodes. -/
def Tree.nodes : Tree → Nat
  | .leaf _ => 1
  | .node z o => 1 + z.nodes + o.nodes

/-- R11: the length of the longest root-to-leaf path. -/
def Tree.depth : Tree → Nat
  | .leaf _ => 0
  | .node z o => 1 + max z.depth o.depth

/-- R132: the shape, the first component of flatten. -/
def Tree.shape : Tree → List Bit
  | .leaf _ => [false]
  | .node z o => true :: (z.shape ++ o.shape)

/-- R132: flatten. Its second component equals R11's leaves. -/
def Tree.flatten (t : Tree) : List Bit × List Byte := (t.shape, t.leaves)

/-- R29 (a): the tree is a `Node`. -/
def Tree.isNode : Tree → Bool
  | .leaf _ => false
  | .node _ _ => true

/-- R29 (b): the symbols of a list are pairwise distinct. -/
def distinct : List Byte → Bool
  | [] => true
  | x :: xs => !xs.contains x && distinct xs

/-- R29: well-formedness. Fullness (c) is the type's. -/
def Tree.wellFormed (t : Tree) : Bool := t.isNode && distinct t.leaves

/-- R29: TREE holds no tree, or a well-formed one. -/
def TreeReg.wellFormed : TreeReg → Bool
  | .empty => true
  | .loaded t => t.wellFormed

/-- R30: TREE_LEAVES. -/
def TreeReg.leafCount : TreeReg → Nat
  | .empty => 0
  | .loaded t => t.leaves.length

/-- R31: the root-to-leaf path of a symbol, `none` where R31 leaves it undefined (a symbol that is no leaf). -/
def Tree.code : Tree → Byte → Option (List Bit)
  | .leaf s', s => if s' = s then some [] else none
  | .node z o, s =>
    if s ∈ z.leaves then (z.code s).map (false :: ·)
    else (o.code s).map (true :: ·)

/-- R130's `parse` with a bound on its depth of calls; `none` is R130's `fail`. -/
def parseWithin : Nat → List Bit → List Byte → Option (Tree × List Bit × List Byte)
  | 0, _, _ => none
  | _ + 1, [], _ => none
  | _ + 1, false :: _, [] => none
  | _ + 1, false :: bits, s :: lv => some (.leaf s, bits, lv)
  | n + 1, true :: bits, lv =>
    match parseWithin n bits lv with
    | none => none
    | some (z, bits₁, lv₁) =>
      match parseWithin n bits₁ lv₁ with
      | none => none
      | some (o, bits₂, lv₂) => some (.node z o, bits₂, lv₂)

/-- R130: "Each call consumes at least one bit, so parse terminates within len(bits) calls", so the bound len(bits) is never met. -/
def parse (bits : List Bit) (lv : List Byte) : Option (Tree × List Bit × List Byte) :=
  parseWithin bits.length bits lv

end Sys2Proof.Machine
end

