-- ==== Sys2Proof/Machine/Codec.lean ====
section
/-! DEFINITION. The encoder and the decoder: 43_codec.md R150 to R153. -/

namespace Sys2Proof.Machine

/-- R150: the concatenated codes of the symbols, `none` when some symbol is no leaf of the tree. -/
def encodeBits (t : Tree) : List Byte → Option (List Bit)
  | [] => some []
  | s :: rest =>
    match t.code s, encodeBits t rest with
    | some c, some bits => some (c ++ bits)
    | _, _ => none

/-- R151: the output of ENCODE before the capacity check, `none` for `UnknownSymbol`.
With no tree loaded every symbol is unknown, and an empty SYMQ gives no bits. -/
def TreeReg.encodeSymbols : TreeReg → List Byte → Option (List Bit)
  | .empty, [] => some []
  | .empty, _ :: _ => none
  | .loaded t, syms => encodeBits t syms

/-- R151 ENCODE: `UnknownSymbol` over the whole of SYMQ, then `Overflow`. -/
def encodeRule (p : Params) (s : State) : Except ErrorKind State :=
  match s.tree.encodeSymbols s.symq with
  | none => .error .unknownSymbol
  | some out =>
    require (decide (s.bitq.length + out.length ≤ p.bitqCap)) .overflow <|
    .ok ((s.setBitq (s.bitq ++ out)).setSymq [])

/-- R152's loop, with a bound on its passes. It answers the symbols still to be emitted and the final count k. -/
def decodePasses (root : Tree) : Nat → Tree → Nat → List Bit → List Byte × Nat
  | 0, _, k, _ => ([], k)
  | n + 1, .leaf s, _, bits =>
    let r := decodePasses root n root 0 bits
    (s :: r.1, r.2)
  | _ + 1, .node _ _, k, [] => ([], k)
  | n + 1, .node z o, k, b :: bits => decodePasses root n (if b then o else z) (k + 1) bits

/-- R152: "The loop runs at most 2*len(bits) + 1 passes" on a well-formed tree, so the bound is never met there.
A tree that is one leaf is no state of the block (10_state.md R29; log entry 6). -/
def decodeBits (t : Tree) (bits : List Bit) : List Byte × Nat :=
  decodePasses t (2 * bits.length + 1) t 0 bits

/-- R153: the decoded symbols and the dropped bits; with no tree loaded every bit is dropped. -/
def TreeReg.decodeSymbols : TreeReg → List Bit → List Byte × Nat
  | .empty, bits => ([], bits.length)
  | .loaded t, bits => decodeBits t bits

/-- R153 DECODE. -/
def decodeRule (p : Params) (s : State) : Except ErrorKind State :=
  let out := (s.tree.decodeSymbols s.bitq).1
  let k := (s.tree.decodeSymbols s.bitq).2
  require (decide (s.symq.length + out.length ≤ p.symqCap)) .overflow <|
  .ok (((s.setSymq (s.symq ++ out)).setBitq []).setDropped k)

/-- ENCODE (R151). -/
def execEncode (s : State) : Host.Outcome State Fault Refusal := runRule Instr.encode.opcode s (encodeRule blockParams s)

/-- DECODE (R153). -/
def execDecode (s : State) : Host.Outcome State Fault Refusal := runRule Instr.decode.opcode s (decodeRule blockParams s)

end Sys2Proof.Machine
end

