-- ==== Sys2Proof/Machine/Control.lean ====
section
/-! DEFINITION. The control commands: 40_control.md R101 to R103. -/

namespace Sys2Proof.Machine

/-- R101 NOP: commit, nothing assigned. -/
def nopRule (s : State) : Except ErrorKind State := .ok s

/-- R102 SOFT_RESET: every element takes its reset value, PEND too (R231: "the same state as hardware reset"; log entry 4).
BUSY is cleared by the engine step (R241). -/
def softResetRule (s : State) : Except ErrorKind State := .ok { State.reset with busy := s.busy }

/-- R103 CLEAR_ERR. -/
def clearErrRule (s : State) : Except ErrorKind State := .ok (acknowledge s)

/-- NOP (R101). -/
def execNop (s : State) : Host.Outcome State Fault Refusal := runRule Instr.nop.opcode s (nopRule s)

/-- SOFT_RESET (R102). -/
def execSoftReset (s : State) : Host.Outcome State Fault Refusal := runRule Instr.softReset.opcode s (softResetRule s)

/-- CLEAR_ERR (R103). -/
def execClearErr (s : State) : Host.Outcome State Fault Refusal := runRule Instr.clearErr.opcode s (clearErrRule s)

end Sys2Proof.Machine
end

