-- ==== Sys2Proof/Machine/Operands.lean ====
section
/-! DEFINITION. The operand checks of the value commands: 30_encoding.md R82, in R100's place before the command's own rule. -/

namespace Sys2Proof.Machine

/-- R82, 41_queue.md R112: a PUSH_BIT operand is exactly 0 or 1. -/
def bitOperand (v : Opd) : Except ErrorKind Bit :=
  if v.toNat = 0 then .ok false
  else if v.toNat = 1 then .ok true
  else .error .invalidBitValue

/-- R82: a byte push takes 0..255, and its element is `v[7:0]`. -/
def byteOperand (v : Opd) : Except ErrorKind Byte :=
  if v.toNat ≤ 255 then .ok (v.setWidth 8) else .error .invalidOperand

/-- R82, 44_pack.md R174: SET_FINAL takes 1..8. -/
def finalOperand (v : Opd) : Except ErrorKind Nat :=
  if 1 ≤ v.toNat ∧ v.toNat ≤ 8 then .ok v.toNat else .error .invalidOperand

end Sys2Proof.Machine
end

