-- ==== Sys2Proof/Machine/Pack.lean ====
section
/-! DEFINITION. The bit-packing engine: 44_pack.md R170 to R174, in the bit order of 20_memory.md R64. -/

namespace Sys2Proof.Machine

/-- R170: the weight of stream bit `8*j + k` in byte `j`, 0 where the stream has no such bit (the zero padding). -/
def bitWeight (bits : List Bit) (j k : Nat) : Nat :=
  match bits[8 * j + k]? with
  | some true => 1 <<< k
  | _ => 0

/-- R170: `byte[j]`, the sum of its eight weights. -/
def packByte (bits : List Bit) (j : Nat) : Byte :=
  BitVec.ofNat 8 (((List.range 8).map (bitWeight bits j)).sum)

/-- R170: the packed bytes and the final valid count. -/
def packBits (bits : List Bit) : List Byte × Nat :=
  ((List.range ((bits.length + 7) / 8)).map (packByte bits),
   if bits.length = 0 then 8 else (bits.length - 1) % 8 + 1)

/-- R172: stream bit `i` of a byte stream. -/
def streamBit (bytes : List Byte) (i : Nat) : Bit := (bytes.getD (i / 8) 0).getLsbD (i % 8)

/-- R172: the unpacked bits; `none` is R172's `fail`. Padding bits are neither returned nor checked. -/
def unpackBits (bytes : List Byte) (f : Nat) : Option (List Bit) :=
  if bytes.length = 0 then
    if f = 8 then some [] else none
  else
    some ((List.range (8 * (bytes.length - 1) + f)).map (streamBit bytes))

/-- R171 PACK. -/
def packRule (p : Params) (s : State) : Except ErrorKind State :=
  let bytes := (packBits s.bitq).1
  let f := (packBits s.bitq).2
  require (decide (s.byteq.length + bytes.length ≤ p.byteqCap)) .overflow <|
  .ok (((s.setByteq (s.byteq ++ bytes)).setBitq []).setFinalValid f)

/-- R173 UNPACK: `UnexpectedEof` before `Overflow`. -/
def unpackRule (p : Params) (s : State) : Except ErrorKind State :=
  match unpackBits s.byteq s.finalValid with
  | none => .error .unexpectedEof
  | some r =>
    require (decide (s.bitq.length + r.length ≤ p.bitqCap)) .overflow <|
    .ok ((s.setBitq (s.bitq ++ r)).setByteq [])

/-- R174 SET_FINAL. -/
def setFinalRule (v : Opd) (s : State) : Except ErrorKind State :=
  (finalOperand v).bind fun f => .ok (s.setFinalValid f)

/-- PACK (R171). -/
def execPack (s : State) : Host.Outcome State Fault Refusal := runRule Instr.pack.opcode s (packRule blockParams s)

/-- UNPACK (R173). -/
def execUnpack (s : State) : Host.Outcome State Fault Refusal := runRule Instr.unpack.opcode s (unpackRule blockParams s)

/-- SET_FINAL (R174). -/
def execSetFinal (v : Opd) (s : State) : Host.Outcome State Fault Refusal :=
  runRule (Instr.setFinal v).opcode s (setFinalRule v s)

end Sys2Proof.Machine
end

