-- ==== Sys2Proof/Machine/Queue.lean ====
section
/-! DEFINITION. The queue commands: 41_queue.md R110 to R119. -/

namespace Sys2Proof.Machine

/-- R111 PUSH_SYM. The range check comes before the capacity check (60_exceptions.md R204). -/
def pushSymRule (p : Params) (v : Opd) (s : State) : Except ErrorKind State :=
  (byteOperand v).bind fun b => push s.symq p.symqCap b s.setSymq

/-- R112 PUSH_BIT. -/
def pushBitRule (p : Params) (v : Opd) (s : State) : Except ErrorKind State :=
  (bitOperand v).bind fun b => push s.bitq p.bitqCap b s.setBitq

/-- R113 PUSH_BYTE. -/
def pushByteRule (p : Params) (v : Opd) (s : State) : Except ErrorKind State :=
  (byteOperand v).bind fun b => push s.byteq p.byteqCap b s.setByteq

/-- R114 PUSH_LEAF. -/
def pushLeafRule (p : Params) (v : Opd) (s : State) : Except ErrorKind State :=
  (byteOperand v).bind fun b => push s.leafq p.leafqCap b s.setLeafq

/-- R116 POP_SYM. -/
def popSymRule (s : State) : Except ErrorKind State := pop s.symq zextByte s.setSymq

/-- R117 POP_BIT. -/
def popBitRule (s : State) : Except ErrorKind State := pop s.bitq zextBit s.setBitq

/-- R118 POP_BYTE. -/
def popByteRule (s : State) : Except ErrorKind State := pop s.byteq zextByte s.setByteq

/-- R119 POP_LEAF. -/
def popLeafRule (s : State) : Except ErrorKind State := pop s.leafq zextByte s.setLeafq

/-- PUSH_SYM (R111). -/
def execPushSym (v : Opd) (s : State) : Host.Outcome State Fault Refusal :=
  runRule (Instr.pushSym v).opcode s (pushSymRule blockParams v s)

/-- PUSH_BIT (R112). -/
def execPushBit (v : Opd) (s : State) : Host.Outcome State Fault Refusal :=
  runRule (Instr.pushBit v).opcode s (pushBitRule blockParams v s)

/-- PUSH_BYTE (R113). -/
def execPushByte (v : Opd) (s : State) : Host.Outcome State Fault Refusal :=
  runRule (Instr.pushByte v).opcode s (pushByteRule blockParams v s)

/-- PUSH_LEAF (R114). -/
def execPushLeaf (v : Opd) (s : State) : Host.Outcome State Fault Refusal :=
  runRule (Instr.pushLeaf v).opcode s (pushLeafRule blockParams v s)

/-- POP_SYM (R116). -/
def execPopSym (s : State) : Host.Outcome State Fault Refusal := runRule Instr.popSym.opcode s (popSymRule s)

/-- POP_BIT (R117). -/
def execPopBit (s : State) : Host.Outcome State Fault Refusal := runRule Instr.popBit.opcode s (popBitRule s)

/-- POP_BYTE (R118). -/
def execPopByte (s : State) : Host.Outcome State Fault Refusal := runRule Instr.popByte.opcode s (popByteRule s)

/-- POP_LEAF (R119). -/
def execPopLeaf (s : State) : Host.Outcome State Fault Refusal := runRule Instr.popLeaf.opcode s (popLeafRule s)

end Sys2Proof.Machine
end

