-- ==== Sys2Proof/Machine/TreeCommands.lean ====
section
/-! DEFINITION. The tree commands: 42_tree.md R131, R133, R134. -/

namespace Sys2Proof.Machine

/-- R131 TREE_LOAD: every malformed input raises the same kind (90_conflicts.md C3). -/
def treeLoadRule (s : State) : Except ErrorKind State :=
  match parse s.bitq s.leafq with
  | none => .error .malformedTree
  | some (t, bits, lv) =>
    require t.isNode .malformedTree <|
    require lv.isEmpty .malformedTree <|
    require (distinct t.leaves) .malformedTree <|
    .ok (((s.setTree (.loaded t)).setBitq bits).setLeafq [])

/-- R133: the flattened form of TREE; "Empty tree produces empty sequences". -/
def TreeReg.flatten : TreeReg → List Bit × List Byte
  | .empty => ([], [])
  | .loaded t => t.flatten

/-- R133 TREE_STORE. -/
def treeStoreRule (p : Params) (s : State) : Except ErrorKind State :=
  let sh := s.tree.flatten.1
  let lv := s.tree.flatten.2
  require (decide (s.bitq.length + sh.length ≤ p.bitqCap)) .overflow <|
  require (decide (s.leafq.length + lv.length ≤ p.leafqCap)) .overflow <|
  .ok ((s.setBitq (s.bitq ++ sh)).setLeafq (s.leafq ++ lv))

/-- R134 TREE_CLEAR. -/
def treeClearRule (s : State) : Except ErrorKind State := .ok (s.setTree .empty)

/-- TREE_LOAD (R131). -/
def execTreeLoad (s : State) : Host.Outcome State Fault Refusal := runRule Instr.treeLoad.opcode s (treeLoadRule s)

/-- TREE_STORE (R133). -/
def execTreeStore (s : State) : Host.Outcome State Fault Refusal := runRule Instr.treeStore.opcode s (treeStoreRule blockParams s)

/-- TREE_CLEAR (R134). -/
def execTreeClear (s : State) : Host.Outcome State Fault Refusal := runRule Instr.treeClear.opcode s (treeClearRule s)

end Sys2Proof.Machine
end

