-- ==== Sys2Proof/Machine/Dispatch.lean ====
section
/-! DEFINITION. One arm per command (30_encoding.md R83). -/

namespace Sys2Proof.Machine

def exec (i : Instr) (s : State) : Host.Outcome State Fault Refusal :=
  match i with
  | .nop => Sys2Proof.Machine.execNop s
  | .softReset => Sys2Proof.Machine.execSoftReset s
  | .clearErr => Sys2Proof.Machine.execClearErr s
  | .pushSym v => Sys2Proof.Machine.execPushSym v s
  | .pushBit v => Sys2Proof.Machine.execPushBit v s
  | .pushByte v => Sys2Proof.Machine.execPushByte v s
  | .pushLeaf v => Sys2Proof.Machine.execPushLeaf v s
  | .popSym => Sys2Proof.Machine.execPopSym s
  | .popBit => Sys2Proof.Machine.execPopBit s
  | .popByte => Sys2Proof.Machine.execPopByte s
  | .popLeaf => Sys2Proof.Machine.execPopLeaf s
  | .treeLoad => Sys2Proof.Machine.execTreeLoad s
  | .treeStore => Sys2Proof.Machine.execTreeStore s
  | .treeClear => Sys2Proof.Machine.execTreeClear s
  | .encode => Sys2Proof.Machine.execEncode s
  | .decode => Sys2Proof.Machine.execDecode s
  | .pack => Sys2Proof.Machine.execPack s
  | .unpack => Sys2Proof.Machine.execUnpack s
  | .setFinal v => Sys2Proof.Machine.execSetFinal v s

end Sys2Proof.Machine
end

