-- ==== Sys2Proof/Machine/Execute.lean ====
section
/-! DEFINITION. The execution skeleton over a word: 40_control.md R100. -/

namespace Sys2Proof.Machine

/-- R100, `Execute(w)`. An illegal word is gated like any other (30_encoding.md R84). A command with a bad operand runs its own
meaning, which raises R82's kind. -/
def execute (w : Word) (s : State) : Host.Outcome State Fault Refusal :=
  match decodeInstr w with
  | none => illegalWord (opcOf w) s
  | some i => exec i s

end Sys2Proof.Machine
end

