-- ==== Sys2Proof/Machine/Step.lean ====
section
/-! DEFINITION. The engine step (70_reset_and_hazards.md R241). -/

namespace Sys2Proof.Machine

/-- R241: enabled exactly when BUSY = 1, `Execute(PEND)` and then `BUSY <- 0`, one atomic transition.
With BUSY = 0 the engine has no step (log entry 3). -/
def step (s : State) : Host.Outcome State Fault Refusal :=
  if s.busy then retire (execute s.pendingWord s) else .fault .engineIdle

/-- The state as an accepted CMD write of the word leaves it (10_state.md R38; log entry 7): the block fetches nothing, so a word
that is to run next is the one in the command latch. -/
def State.withFetchWord (s : State) (_nbits w : Nat) : State := s.latch (BitVec.ofNat 32 w)

end Sys2Proof.Machine
end

