-- ==== Sys2Proof/Machine/Assembler.lean ====
section
/-! DEFINITION. The assembler lines and pseudo-instructions of 30_encoding.md R87 and R88: host tools, no behaviour of the block. -/

namespace Sys2Proof.Machine

/-- R83's mnemonics, with the opcode and whether the command takes an operand. -/
def mnemonicTable : List (List Char × Byte × Bool) :=
  [(['N','O','P'], 0x00, false),
   (['S','O','F','T','_','R','E','S','E','T'], 0x01, false),
   (['C','L','E','A','R','_','E','R','R'], 0x02, false),
   (['P','U','S','H','_','S','Y','M'], 0x10, true),
   (['P','U','S','H','_','B','I','T'], 0x11, true),
   (['P','U','S','H','_','B','Y','T','E'], 0x12, true),
   (['P','U','S','H','_','L','E','A','F'], 0x13, true),
   (['P','O','P','_','S','Y','M'], 0x18, false),
   (['P','O','P','_','B','I','T'], 0x19, false),
   (['P','O','P','_','B','Y','T','E'], 0x1A, false),
   (['P','O','P','_','L','E','A','F'], 0x1B, false)] ++
  [(['T','R','E','E','_','L','O','A','D'], 0x20, false),
   (['T','R','E','E','_','S','T','O','R','E'], 0x21, false),
   (['T','R','E','E','_','C','L','E','A','R'], 0x22, false),
   (['E','N','C','O','D','E'], 0x30, false),
   (['D','E','C','O','D','E'], 0x31, false),
   (['P','A','C','K'], 0x40, false),
   (['U','N','P','A','C','K'], 0x41, false),
   (['S','E','T','_','F','I','N','A','L'], 0x42, true)]

/-- The value of a digit in a base, capital or small letters for ten and above. -/
def digitValue (base : Nat) (c : Char) : Option Nat :=
  let n := c.toNat
  let d :=
    if 48 ≤ n ∧ n ≤ 57 then n - 48
    else if 65 ≤ n ∧ n ≤ 70 then n - 55
    else if 97 ≤ n ∧ n ≤ 102 then n - 87
    else 16
  if d < base then some d else none

/-- The number a run of digits spells, `none` for a character that is no digit. -/
def digitsValue (base : Nat) : Nat → List Char → Option Nat
  | acc, [] => some acc
  | acc, c :: cs =>
    match digitValue base c with
    | none => none
    | some d => digitsValue base (acc * base + d) cs

/-- R87: an operand is a decimal or a hexadecimal number. -/
def numberValue : List Char → Option Nat
  | [] => none
  | ['0', 'x'] => none
  | '0' :: 'x' :: cs => digitsValue 16 0 cs
  | cs => digitsValue 10 0 cs

/-- A blank between the parts of a line: a space or a tab (log entry 10). -/
def isBlank (c : Char) : Bool := c == ' ' || c == '\t'

/-- What may follow the last part of a line: blanks, then nothing or a comment (R87). -/
def lineEnds (cs : List Char) : Bool :=
  match cs.dropWhile isBlank with
  | [] => true
  | c :: _ => c == ';'

/-- R87: the operand at the head of a text, with the text after it. A character literal stands for its byte code. -/
def operandOf : List Char → Option (Nat × List Char)
  | '\'' :: c :: '\'' :: rest => if c.toNat ≤ 255 then some (c.toNat, rest) else none
  | cs =>
    let token := cs.takeWhile fun c => !isBlank c && c != ';'
    (numberValue token).map fun n => (n, cs.drop token.length)

/-- R87: the word of a line. A no-operand mnemonic takes no operand; a value mnemonic takes exactly one, and `v >= 2^24` is rejected;
a smaller value out of range is encoded. -/
def assembleLine (line : List Char) : Option Word :=
  let text := line.dropWhile isBlank
  let name := text.takeWhile fun c => !isBlank c && c != ';'
  let after := text.drop name.length
  match mnemonicTable.lookup name with
  | none => none
  | some (opc, false) => if lineEnds after then some (encodeWord opc 0) else none
  | some (opc, true) =>
    match operandOf (after.dropWhile isBlank) with
    | none => none
    | some (v, rest) =>
      if v < 2 ^ 24 ∧ lineEnds rest then some (encodeWord opc (BitVec.ofNat 24 v)) else none

/-- R88 `PUSH_SYMS`. -/
def pushSyms (text : List Byte) : List Instr := text.map fun c => .pushSym (c.setWidth 24)

/-- R88 `PUSH_LEAVES`. -/
def pushLeaves (text : List Byte) : List Instr := text.map fun c => .pushLeaf (c.setWidth 24)

/-- R88 `PUSH_BITS`. -/
def pushBits (bits : List Bit) : List Instr := bits.map fun b => .pushBit (if b then 1 else 0)

/-- R88 `PUSH_BYTES`. -/
def pushBytes (xs : List Byte) : List Instr := xs.map fun x => .pushByte (x.setWidth 24)

/-- R88 `LOAD_TREE`. -/
def loadTree (shape : List Bit) (leaves : List Byte) : List Instr := pushBits shape ++ pushLeaves leaves ++ [.treeLoad]

/-- R88 `ENCODE_PACK`. -/
def encodePack : List Instr := [.treeStore, .encode, .pack]

/-- R88 `UNPACK_DECODE`. -/
def unpackDecode : List Instr := [.unpack, .treeLoad, .decode]

end Sys2Proof.Machine
end

