-- ==== Sys2Proof/Machine/HostBuilder.lean ====
section
/-! DEFINITION. Host-side reference: case folding and the tree builder (80_host_interface.md R264 to R271). No command implements them. -/

namespace Sys2Proof.Machine

/-- R264: one byte of `fold`. The letter codes are ASCII (93_implementation_defined.md G3). -/
def foldByte (b : Byte) : Byte := if 0x61 ≤ b.toNat ∧ b.toNat ≤ 0x7A then b - 0x20 else b

/-- R264: the text the host compresses. -/
def foldText (hp : HostParams) (text : List Byte) : List Byte :=
  if hp.foldCase then text.map foldByte else text

/-- R265: `freq(s)`. -/
def freq (text : List Byte) (s : Byte) : Nat := text.count s

/-- R267 FIRST_SEEN: the distinct symbols in order of first occurrence. -/
def firstSeen : List Byte → List Byte
  | [] => []
  | x :: xs => x :: (firstSeen xs).filter (· ≠ x)

/-- R267 ASCENDING: the distinct symbols in increasing byte value. -/
def ascending (text : List Byte) : List Byte :=
  ((List.range 256).map (BitVec.ofNat 8)).filter fun s => text.contains s

/-- R267: the distinct symbols in SEED_ORDER. -/
def seedSymbols (order : SeedOrder) (text : List Byte) : List Byte :=
  match order with
  | .ascending => ascending text
  | .firstSeen => firstSeen text

/-- R267: an entry of the priority structure. -/
structure Entry where
  priority : Nat
  counter : Nat
  tree : Tree
  deriving DecidableEq, Repr

/-- R267: the seed entries, with counters in insertion order. -/
def seedEntries (order : SeedOrder) (text : List Byte) : List Entry :=
  (seedSymbols order text).zipIdx.map fun p => { priority := freq text p.1, counter := p.2, tree := .leaf p.1 }

/-- R268: whether entry `a` is dequeued before entry `b`. -/
def dequeuedBefore (tie : TieOrder) (a b : Entry) : Bool :=
  a.priority < b.priority ||
  (a.priority == b.priority &&
    match tie with
    | .fifo => a.counter < b.counter
    | .newestFirst => b.counter < a.counter)

/-- R268: dequeue, with the entries that stay. -/
def dequeue (tie : TieOrder) : List Entry → Option (Entry × List Entry)
  | [] => none
  | e :: es =>
    match dequeue tie es with
    | none => some (e, [])
    | some (m, rest) => if dequeuedBefore tie m e then some (m, e :: rest) else some (e, m :: rest)

/-- R269: merge while more than one entry remains; a merge removes one entry, so the number of entries bounds the merges.
`counter` is the next counter value. -/
def mergeEntries (tie : TieOrder) : Nat → Nat → List Entry → Option Tree
  | 0, _, _ => none
  | n + 1, counter, es =>
    match dequeue tie es with
    | none => none
    | some (a, rest) =>
      match dequeue tie rest with
      | none => some a.tree
      | some (b, rest') =>
        mergeEntries tie n (counter + 1)
          ({ priority := a.priority + b.priority, counter := counter, tree := .node a.tree b.tree } :: rest')

/-- R266 to R270: build the tree of an already folded text. -/
def buildTree (hp : HostParams) (x : List Byte) : Except ErrorKind Tree :=
  let es := seedEntries hp.seedOrder x
  if es.length < minLeaves then .error .insufficientSymbols
  else
    match mergeEntries hp.tieOrder es.length es.length es with
    | some t => .ok t
    | none => .error .insufficientSymbols

end Sys2Proof.Machine
end

