-- ==== Sys2Proof/Machine/HostContainer.lean ====
section
/-! DEFINITION. Host-side reference: the container format (80_host_interface.md R272 to R279; 90_conflicts.md C1). No command implements it. -/

namespace Sys2Proof.Machine

/-- The four bytes of MAGIC_BYTES in sequence (R272). -/
def magicBytes (m : Magic) : List Byte := [m.m0, m.m1, m.m2, m.m3]

/-- What a container holds (R278's answer). -/
structure Container where
  /-- C, the number of leaves. -/
  count : Nat
  leaves : List Byte
  /-- F, the final valid count. -/
  final : Nat
  payload : List Byte
  deriving DecidableEq, Repr

/-- R279's requirements. -/
abbrev Container.Serializable (c : Container) : Prop :=
  (minLeaves ≤ c.count ∧ c.count ≤ maxLeaves) ∧ c.leaves.length = c.count ∧ (1 ≤ c.final ∧ c.final ≤ 8) ∧ 1 ≤ c.payload.length

/-- R279: serialize. The count byte holds C - 1 (R273). -/
def serialize (m : Magic) (c : Container) : List Byte :=
  magicBytes m ++ [BitVec.ofNat 8 (c.count - 1)] ++ c.leaves ++ [BitVec.ofNat 8 c.final] ++ c.payload

/-- R278: parse, with the checks in the rule's order. -/
def parseContainer (m : Magic) (bytes : List Byte) : Except ErrorKind Container :=
  if bytes.length < 4 ∨ bytes.take 4 ≠ magicBytes m then .error .badFormat
  else if bytes.length < 5 then .error .truncated
  else
    let k := (bytes.getD 4 0).toNat
    if k = 0 then .error .invalidSymbolCount
    else
      let c := k + 1
      if bytes.length < 6 + c then .error .truncated
      else
        let f := (bytes.getD (5 + c) 0).toNat
        if f < 1 ∨ 8 < f then .error .badFormat
        else if bytes.length - 6 - c = 0 then .error .truncated
        else .ok { count := c, leaves := (bytes.drop 5).take c, final := f, payload := bytes.drop (6 + c) }

end Sys2Proof.Machine
end

