-- ==== Sys2Proof/Machine/Instance.lean ====
section
/-! DEFINITION. The block with its open parameters as an argument (00_scope.md R7): every instance, of which `exec` and `step` are one. -/

namespace Sys2Proof.Machine

/-- The rule of a command on an instance with parameters `p`, behind the ERR gate. -/
def ruleAt (p : Params) : Instr → State → Except ErrorKind State
  | .nop => nopRule
  | .softReset => softResetRule
  | .clearErr => clearErrRule
  | .pushSym v => pushSymRule p v
  | .pushBit v => pushBitRule p v
  | .pushByte v => pushByteRule p v
  | .pushLeaf v => pushLeafRule p v
  | .popSym => popSymRule
  | .popBit => popBitRule
  | .popByte => popByteRule
  | .popLeaf => popLeafRule
  | .treeLoad => treeLoadRule
  | .treeStore => treeStoreRule p
  | .treeClear => treeClearRule
  | .encode => encodeRule p
  | .decode => decodeRule p
  | .pack => packRule p
  | .unpack => unpackRule p
  | .setFinal v => setFinalRule v

/-- 40_control.md R100: a command on an instance with parameters `p`. -/
def execAt (p : Params) (i : Instr) (s : State) : Host.Outcome State Fault Refusal :=
  runRule i.opcode s (ruleAt p i s)

/-- 40_control.md R100, `Execute(w)`, on an instance with parameters `p`. -/
def executeAt (p : Params) (w : Word) (s : State) : Host.Outcome State Fault Refusal :=
  match decodeInstr w with
  | none => illegalWord (opcOf w) s
  | some i => execAt p i s

/-- 70_reset_and_hazards.md R241: the engine step of an instance with parameters `p`. -/
def stepAt (p : Params) (s : State) : Host.Outcome State Fault Refusal :=
  if s.busy then retire (executeAt p s.pendingWord s) else .fault .engineIdle

end Sys2Proof.Machine
end

