-- ==== Sys2Proof/Machine/Flags.lean ====
section
/-! DEFINITION. The flags and the read-only register views of 10_state.md R41 to R47, none with storage of its own. -/

namespace Sys2Proof.Machine

/-- A flag at bit `n` of a register. -/
def flagBit (b : Bool) (n : Nat) : Word := if b then 1#32 <<< n else 0#32

/-- R41 bit 2, TREE_VALID. -/
def State.treeValid (s : State) : Bool :=
  match s.tree with
  | .empty => false
  | .loaded _ => true

/-- R41: STATUS. -/
def State.statusReg (s : State) : Word :=
  flagBit s.busy 0 ||| flagBit s.err 1 ||| flagBit s.treeValid 2 ||| flagBit s.dangling 3 ||| flagBit s.overrun 4 |||
  flagBit s.symq.isEmpty 5 ||| flagBit s.bitq.isEmpty 6 ||| flagBit s.byteq.isEmpty 7 ||| flagBit s.leafq.isEmpty 8

/-- R42: ERRINFO is `(ERR_OPC << 8) | ERRCODE`. -/
def State.errInfoReg (s : State) : Word := s.errOpc.setWidth 32 <<< 8 ||| s.errCode.setWidth 32

/-- R44: FINAL. -/
def State.finalReg (s : State) : Word := BitVec.ofNat 32 s.finalValid

/-- R45: the length of a queue as a 32-bit unsigned number. -/
def countReg {α : Type} (q : List α) : Word := BitVec.ofNat 32 q.length

/-- R46: TREE_LEAVES. -/
def State.treeLeavesReg (s : State) : Word := BitVec.ofNat 32 s.tree.leafCount

end Sys2Proof.Machine
end

