-- ==== Sys2Proof/Machine/Window.lean ====
section
/-! DEFINITION. The register window as the host sees it: 10_state.md R39 to R48, 20_memory.md R61, R62 and R66, 80_host_interface.md R260. -/

namespace Sys2Proof.Machine

/-- One host access to the window: its width in bits and its byte offset from HUFF_BASE. -/
structure Access where
  width : Nat
  off : Nat
  deriving DecidableEq, Repr

/-- 20_memory.md R61: 32 bits wide, aligned, inside the window. -/
def Access.admitted (a : Access) : Bool := decide (a.width = 32 ∧ a.off % 4 = 0 ∧ a.off < windowBytes)

/-- The aligned 32-bit access at an offset. -/
def wordAccess (off : Nat) : Access := { width := 32, off := off }

/-- R39: the access a bus address stands for, `none` below the window. -/
def accessOfBus (p : Params) (width addr : Nat) : Option Access :=
  if p.base ≤ addr then some { width := width, off := addr - p.base } else none

/-- R39 to R48: the value each offset reads as. CMD and the reserved offsets read 0. -/
def readReg (off : Nat) (s : State) : Word :=
  match off with
  | 0x04 => s.statusReg
  | 0x08 => s.errInfoReg
  | 0x0C => s.result
  | 0x10 => s.finalReg
  | 0x14 => countReg s.symq
  | 0x18 => countReg s.bitq
  | 0x1C => countReg s.byteq
  | 0x20 => countReg s.leafq
  | 0x24 => s.treeLeavesReg
  | 0x28 => s.dropCount
  | _ => 0

/-- 10_state.md R37: a CMD write while BUSY = 1 sets OVERRUN, and the word is discarded. -/
def State.overrunSet (s : State) : State := { s with overrun := true }

/-- R260: a CMD write is accepted while BUSY = 0 and discarded while BUSY = 1; any other offset ignores the write (R66). -/
def writeReg (off : Nat) (v : Word) (s : State) : State :=
  if off = 0x00 then
    if s.busy then s.overrunSet else s.latch v
  else s

/-- R260 RegRead, with R61's refusal. It changes nothing. -/
def hostRead (a : Access) (s : State) : Except Refusal Word :=
  if a.admitted then .ok (readReg a.off s) else .error .accessOutsideSpec

/-- R260 RegWrite, with R61's refusal. -/
def hostWrite (a : Access) (v : Word) (s : State) : Except Refusal State :=
  if a.admitted then .ok (writeReg a.off v s) else .error .accessOutsideSpec

/-- R62, R63: a read at a bus address; an address below the window is no access of the block. -/
def busRead (p : Params) (width addr : Nat) (s : State) : Except Refusal Word :=
  match accessOfBus p width addr with
  | none => .error .accessOutsideSpec
  | some a => hostRead a s

/-- R62, R63: a write at a bus address. -/
def busWrite (p : Params) (width addr : Nat) (v : Word) (s : State) : Except Refusal State :=
  match accessOfBus p width addr with
  | none => .error .accessOutsideSpec
  | some a => hostWrite a v s

end Sys2Proof.Machine
end

