-- ==== Sys2Proof/Machine/System.lean ====
section
/-! DEFINITION. The block and its host together: every interleaving of host steps and engine steps (80_host_interface.md R260),
and the issue protocol (R261). -/

namespace Sys2Proof.Machine

/-- One atomic transition of the system (R260; 70_reset_and_hazards.md R230, R241). -/
inductive Event where
  | engine
  | write (a : Access) (v : Word)
  | read (a : Access)
  | hardReset
  deriving DecidableEq, Repr

/-- The outcome of a host access as a transition. -/
def ofAccess : Except Refusal State → Host.Outcome State Fault Refusal
  | .ok s => .next s
  | .error r => .refused r

/-- The transition of one event. A read changes nothing (20_memory.md R66). -/
def stepEvent (p : Params) (e : Event) (s : State) : Host.Outcome State Fault Refusal :=
  match e with
  | .engine => stepAt p s
  | .write a v => ofAccess (hostWrite a v s)
  | .read a => ofAccess ((hostRead a s).map fun _ => s)
  | .hardReset => .next .reset

/-- A run: any interleaving of events is a possible run (R260), and the list says which. -/
def runEvents (p : Params) : List Event → State → Host.Outcome State Fault Refusal
  | [], s => .next s
  | e :: es, s =>
    match stepEvent p e s with
    | .next t => runEvents p es t
    | .fault f => .fault f
    | .refused r => .refused r

/-- The words the block accepts along a run, in order (20_memory.md R71 (1)): CMD writes while BUSY = 0. -/
def acceptedWords (p : Params) : List Event → State → List Word
  | [], _ => []
  | e :: es, s =>
    let rest :=
      match stepEvent p e s with
      | .next t => acceptedWords p es t
      | _ => []
    match e with
    | .write a v => if a.admitted && a.off == 0x00 && !s.busy then v :: rest else rest
    | _ => rest

/-- The values the host reads along a run, in order. -/
def readValues (p : Params) : List Event → State → List Word
  | [], _ => []
  | e :: es, s =>
    let rest :=
      match stepEvent p e s with
      | .next t => readValues p es t
      | _ => []
    match e with
    | .read a => (hostRead a s).toOption.toList ++ rest
    | _ => rest

/-- R261's wait for BUSY = 0. It ends, because the engine's step is eventually taken (70_reset_and_hazards.md R239; log entry 9). -/
def awaitIdle (p : Params) (s : State) : State :=
  match stepAt p s with
  | .next t => t
  | _ => s

/-- R261: issue one word. The status it returns is `readReg 0x04` of the answer. -/
def issue (p : Params) (w : Word) (s : State) : State := awaitIdle p (writeReg 0x00 w (awaitIdle p s))

/-- A host program (70_reset_and_hazards.md R240): each word written after BUSY reads 0. -/
def issueAll (p : Params) (ws : List Word) (s : State) : State := ws.foldl (fun t w => issue p w t) s

end Sys2Proof.Machine
end

