-- ==== Sys2Proof/Machine/HostProcedures.lean ====
section
/-! DEFINITION. Host-side reference: compress and decompress, driving the block through its register window (80_host_interface.md R262, R263). -/

namespace Sys2Proof.Machine

/-- Issue a command and surface a block error as its ERRCODE (R262: "Any block error aborts compress and is surfaced to the caller"). -/
def issueChecked (p : Params) (i : Instr) (s : State) : Except Byte State :=
  let t := issue p (encode i) s
  if (readReg 0x04 t).getLsbD 1 then .error ((readReg 0x08 t).setWidth 8) else .ok t

/-- Issue commands in order, stopping at the first block error. -/
def issueSeq (p : Params) : List Instr → State → Except Byte State
  | [], s => .ok s
  | i :: is, s => (issueChecked p i s).bind (issueSeq p is)

/-- n times (issue a POP; RegRead(0x0C)). -/
def popMany (p : Params) (i : Instr) : Nat → State → Except Byte (List Byte × State)
  | 0, s => .ok ([], s)
  | n + 1, s =>
    (issueChecked p i s).bind fun t =>
    (popMany p i n t).bind fun r =>
    .ok ((readReg 0x0C t).setWidth 8 :: r.1, r.2)

/-- R262: the block half of compress, from SOFT_RESET to TREE_CLEAR, for an already folded text and its tree. -/
def compressOnBlock (p : Params) (t : Tree) (x : List Byte) (s : State) : Except Byte (Container × State) :=
  (issueSeq p ([.softReset] ++ pushBits t.shape ++ pushLeaves t.leaves ++ [.treeLoad, .treeStore] ++ pushSyms x ++ [.encode, .pack]) s).bind fun s₁ =>
  let c := (readReg 0x20 s₁).toNat
  (popMany p .popLeaf c s₁).bind fun r₂ =>
  let f := (readReg 0x10 r₂.2).toNat
  let n := (readReg 0x1C r₂.2).toNat
  (popMany p .popByte n r₂.2).bind fun r₃ =>
  (issueSeq p [.treeClear] r₃.2).bind fun s₄ =>
  .ok ({ count := c, leaves := r₂.1, final := f, payload := r₃.1 }, s₄)

/-- R262: compress, with the state the block is left in. Errors are ERRCODE values (60_exceptions.md R200). -/
def compress (p : Params) (hp : HostParams) (text : List Byte) (s : State) : Except Byte (List Byte × State) :=
  let x := foldText hp text
  ((buildTree hp x).mapError ErrorKind.code).bind fun t =>
  (compressOnBlock p t x s).bind fun r =>
  .ok (serialize hp.magic r.1, r.2)

/-- R263: the block half of decompress. -/
def decompressOnBlock (p : Params) (c : Container) (s : State) : Except Byte (List Byte × State) :=
  (issueSeq p ([.softReset] ++ pushLeaves c.leaves ++ pushBytes c.payload ++ [.setFinal (BitVec.ofNat 24 c.final)] ++ unpackDecode) s).bind fun s₁ =>
  let n := (readReg 0x14 s₁).toNat
  (popMany p .popSym n s₁).bind fun r₂ =>
  (issueSeq p [.treeClear] r₂.2).bind fun s₃ =>
  .ok (r₂.1, s₃)

/-- R263: decompress, with the state the block is left in. -/
def decompress (p : Params) (hp : HostParams) (bytes : List Byte) (s : State) : Except Byte (List Byte × State) :=
  ((parseContainer hp.magic bytes).mapError ErrorKind.code).bind fun c =>
  decompressOnBlock p c s

end Sys2Proof.Machine
end

