-- ==== Sys2Proof/Safety.lean ====
section
/-! DEFINITION. What a safe state and a clean run are, in the terms the statements use. -/

namespace Sys2Proof.Machine

/-- 10_state.md R27: the capacity invariant. -/
abbrev State.CapacityInv (s : State) (p : Params) : Prop :=
  s.symq.length ≤ p.symqCap ∧ s.bitq.length ≤ p.bitqCap ∧
  s.byteq.length ≤ p.byteqCap ∧ s.leafq.length ≤ p.leafqCap

/-- 10_state.md R29: a loaded tree is well formed. -/
abbrev State.TreeInv (s : State) : Prop := s.tree.wellFormed = true

/-- 10_state.md R33: FINAL_VALID is 1..8. -/
abbrev State.FinalInv (s : State) : Prop := 1 ≤ s.finalValid ∧ s.finalValid ≤ 8

/-- 10_state.md R43: bits 31:8 of RESULT are 0. -/
abbrev State.ResultInv (s : State) : Prop := s.result.toNat < 256

/-- 10_state.md R35: ERR = 0 exactly when ERRCODE = 0, and ERR = 0 implies ERR_OPC = 0. -/
abbrev State.ErrorInv (s : State) : Prop :=
  (s.err = false ↔ s.errCode = 0) ∧ (s.err = false → s.errOpc = 0)

/-- 60_exceptions.md R200: the ERRCODE values the block itself produces; the host-side and reserved codes never appear. -/
abbrev State.ErrorCodeInv (s : State) : Prop :=
  s.errCode ∈ ([0x00, 0x01, 0x03, 0x04, 0x09, 0x0A, 0x0B, 0x0C] : List Byte)

/-- 10_state.md R36, R47: DANGLING is 1 exactly when DROP_COUNT is not 0, and DROP_COUNT is at most BITQ_CAP. -/
abbrev State.DropInv (s : State) (p : Params) : Prop :=
  (s.dangling = true ↔ s.dropCount ≠ 0) ∧ s.dropCount.toNat ≤ p.bitqCap

/-- The invariant of the block: the constraints 10_state.md puts on its state record, for an instance with legal parameters. -/
abbrev State.Inv (s : State) (p : Params) : Prop :=
  p.Legal ∧ s.CapacityInv p ∧ s.TreeInv ∧ s.FinalInv ∧ s.ResultInv ∧ s.ErrorInv ∧ s.ErrorCodeInv ∧ s.DropInv p

/-- 60_exceptions.md R201, R205: what an error entry with an ERRCODE value and an opcode leaves, every other element as it was. -/
def State.failedWith (s : State) (code opc : Byte) : State := { s with err := true, errCode := code, errOpc := opc }

/-- 70_reset_and_hazards.md R240: a run that ended in this state is clean. -/
def State.clean (s : State) : Bool := !s.err && !s.overrun

/-- Running a command on the instance with parameters `p` answers the next state `t`; where `p` is the instance `exec` is,
`exec` answers it. -/
def Runs (p : Params) (i : Instr) (s t : State) : Prop :=
  execAt p i s = .next t ∧ (p = blockParams → exec i s = .next t)

/-- The engine step of the instance with parameters `p` answers the next state `t`; where `p` is the instance `step` is,
`step` answers it. -/
def Steps (p : Params) (s t : State) : Prop :=
  stepAt p s = .next t ∧ (p = blockParams → step s = .next t)

/-- 30_encoding.md R81, R84: `opc` is a no-operand opcode. Its word spells the command with operand 0 alone, and with any other operand
executing the word fails with `IllegalCommand`, unless the ERR gate discards it first. -/
def TakesNoOperand (opc : Byte) (i : Instr) : Prop :=
  decodeInstr (encodeWord opc 0) = some i ∧
  ∀ (p : Params) (s : State) (v : Opd), v ≠ 0 → s.busy = true → s.pend = encodeWord opc v → (s.err = false ∨ opc.toNat ≤ 2) →
    Steps p s { s.failedWith 0x0A opc with busy := false }

end Sys2Proof.Machine
end

