-- ==== Sys2Proof/Certificates/Slice0/Obligations.lean ====
section
/-! DEFINITION. The statements about the model, each from a rule of spec/ that its docstring names. A statement that depends on the open
parameters (00_scope.md R7) is for every instance: `Runs p i s t` says that the command answers `t` on the instance with parameters `p`,
and that `exec i s` answers `t` where `p` is its instance; `Steps p s t` says the same of the engine step and `step` (log entry 1). -/

open Sys2Proof Sys2Proof.Machine

/-! Encoding -/

/-- Command words written out from the spec: 30_encoding.md R87 (PUSH_BIT 1 is 0x00000111, PUSH_BIT 48 is 0x00003011, PUSH_SYM 'S' is
0x00005310), 44_pack.md R174 (SET_FINAL 2 is 0x00000242), 95_test_vectors.md V24, V82. One of each family. -/
def Obligations.SpecWordsDecodeToTheirCommands : Prop :=
  decodeInstr 0x00000000 = some .nop ∧ decodeInstr 0x00000111 = some (.pushBit 1) ∧
  decodeInstr 0x00003011 = some (.pushBit 48) ∧ decodeInstr 0x00005310 = some (.pushSym 0x53) ∧
  decodeInstr 0x0000001A = some .popByte ∧ decodeInstr 0x00000020 = some .treeLoad ∧
  decodeInstr 0x00000031 = some .decode ∧ decodeInstr 0x00000242 = some (.setFinal 2) ∧
  decodeInstr 0x00000118 = none ∧ decodeInstr 0x00000003 = none

/-- 30_encoding.md R80, R83: decoding the word of a command gives the command back, with its operand at every value of the 24-bit
field, and so does decoding the word's byte lanes (20_memory.md R62). -/
def Obligations.DecodeOfEncodeIsTheCommand : Prop :=
  ∀ i : Instr, decodeInstr (encode i) = some i ∧
    decodeBytes [laneByte (encode i) 0, laneByte (encode i) 1, laneByte (encode i) 2, laneByte (encode i) 3] = some i

/-- 30_encoding.md R85: every word is exactly one of a command with a legal operand, a command with an operand out of range, or an
illegal word; the command is the one whose encoding the word is. -/
def Obligations.EveryWordIsExactlyOneOfThree : Prop :=
  ∀ w : Word,
    (∀ i, decode w = .cmd i ↔ encode i = w ∧ i.wellFormed = true) ∧
    (∀ i, decode w = .badOperand i ↔ encode i = w ∧ i.wellFormed = false) ∧
    (∀ opc, decode w = .illegal opc ↔ opc = opcOf w ∧ ∀ i, encode i ≠ w)

/-- 30_encoding.md R84: which words spell no command, and what executing one does: `IllegalCommand` with ERR_OPC = w[7:0], but for the
ERR gate, which discards it first. -/
def Obligations.IllegalWordsFail : Prop :=
  ∀ w : Word,
    (decodeInstr w = none ↔
      ((0x03 ≤ (opcOf w).toNat ∧ (opcOf w).toNat ≤ 0x0F) ∨ (0x14 ≤ (opcOf w).toNat ∧ (opcOf w).toNat ≤ 0x17) ∨
       (0x1C ≤ (opcOf w).toNat ∧ (opcOf w).toNat ≤ 0x1F) ∨ (0x23 ≤ (opcOf w).toNat ∧ (opcOf w).toNat ≤ 0x2F) ∨
       (0x32 ≤ (opcOf w).toNat ∧ (opcOf w).toNat ≤ 0x3F) ∨ 0x43 ≤ (opcOf w).toNat) ∨
      (opcOf w ∈ ([0x00, 0x01, 0x02, 0x18, 0x19, 0x1A, 0x1B, 0x20, 0x21, 0x22, 0x30, 0x31, 0x40, 0x41] : List Byte) ∧ opdOf w ≠ 0)) ∧
    ∀ (p : Params) (s : State), s.busy = true → s.pend = w → decodeInstr w = none →
      ((s.err = false ∨ (opcOf w).toNat ≤ 2) → Steps p s { s.failedWith 0x0A (opcOf w) with busy := false }) ∧
      (s.err = true → 2 < (opcOf w).toNat → Steps p s { s with busy := false })

/-! The engine step -/

/-- 70_reset_and_hazards.md R241 with 40_control.md R100: a step with BUSY = 1 runs the command that PEND spells, whatever its operand,
and then clears BUSY; with BUSY = 0 the engine has no step. (That `step` names that case `engineIdle` is the model's, log entry 3.) -/
def Obligations.StepRunsTheDecodedCommand : Prop :=
  ∀ (p : Params) (s : State),
    (s.busy = true → ∀ i t, decodeInstr s.pend = some i → Runs p i s t → Steps p s { t with busy := false }) ∧
    (s.busy = false → ∀ t, stepAt p s ≠ .next t ∧ step s ≠ .next t)

/-- 70_reset_and_hazards.md R241: the engine "can never become stuck while BUSY = 1, because Execute is total". Every word in every state
ends in a next state with BUSY = 0. -/
def Obligations.BusyStepAlwaysCompletes : Prop :=
  ∀ (p : Params) (s : State), s.busy = true → ∃ t, Steps p s t ∧ t.busy = false

/-! Control commands -/

/-- 40_control.md R101: NOP changes nothing, with ERR = 0 and with ERR = 1; with an operand it fails, with ERR = 1 too. -/
def Obligations.NopChangesNothing : Prop :=
  TakesNoOperand 0x00 .nop ∧ ∀ (p : Params) (s : State), Runs p .nop s s

/-- 40_control.md R102 and 70_reset_and_hazards.md R231: SOFT_RESET returns every element to its reset value, from any state, with ERR = 1
too, and a step that runs it leaves exactly the hardware reset state. (That PEND is among the elements is read from R231, log entry 4.) -/
def Obligations.SoftResetRestoresTheResetState : Prop :=
  TakesNoOperand 0x01 .softReset ∧
  ∀ (p : Params) (s : State),
    Runs p .softReset s
      { symq := [], bitq := [], byteq := [], leafq := [], tree := .empty, finalValid := 8, result := 0, err := false, errCode := 0,
        errOpc := 0, dangling := false, dropCount := 0, overrun := false, busy := s.busy, pend := 0 } ∧
    (s.busy = true → s.pend = 0x00000001 → Steps p s State.reset)

/-- 40_control.md R103: CLEAR_ERR clears ERR, ERRCODE, ERR_OPC and OVERRUN and nothing else, in every state; with an operand it fails, with
ERR = 1 too. -/
def Obligations.ClearErrClearsTheErrorState : Prop :=
  TakesNoOperand 0x02 .clearErr ∧
  ∀ (p : Params) (s : State), ∃ u, Runs p .clearErr s u ∧ u = { s with err := false, errCode := 0, errOpc := 0, overrun := false } ∧
    u.statusReg.getLsbD 1 = false ∧ u.statusReg.getLsbD 4 = false

/-! Queue commands -/

/-- 41_queue.md R111, R113, R114: PUSH_SYM, PUSH_BYTE and PUSH_LEAF. Their words; success, with the queue's empty flag cleared;
`InvalidOperand` whatever the queue holds; `Overflow` on a full queue. -/
def Obligations.BytePushesAppendOrFail : Prop :=
  ∀ (p : Params) (s : State) (v : Opd),
    (decodeInstr (encodeWord 0x10 v) = some (.pushSym v) ∧ decodeInstr (encodeWord 0x12 v) = some (.pushByte v) ∧
      decodeInstr (encodeWord 0x13 v) = some (.pushLeaf v)) ∧
    (s.err = false → v.toNat ≤ 255 →
      (s.symq.length + 1 ≤ p.symqCap →
        Runs p (.pushSym v) s { s with symq := s.symq ++ [v.setWidth 8] } ∧
        ({ s with symq := s.symq ++ [v.setWidth 8] } : State).statusReg.getLsbD 5 = false) ∧
      (s.byteq.length + 1 ≤ p.byteqCap →
        Runs p (.pushByte v) s { s with byteq := s.byteq ++ [v.setWidth 8] } ∧
        ({ s with byteq := s.byteq ++ [v.setWidth 8] } : State).statusReg.getLsbD 7 = false) ∧
      (s.leafq.length + 1 ≤ p.leafqCap →
        Runs p (.pushLeaf v) s { s with leafq := s.leafq ++ [v.setWidth 8] } ∧
        ({ s with leafq := s.leafq ++ [v.setWidth 8] } : State).statusReg.getLsbD 8 = false) ∧
      (p.symqCap < s.symq.length + 1 → Runs p (.pushSym v) s (s.failedWith 0x0C 0x10)) ∧
      (p.byteqCap < s.byteq.length + 1 → Runs p (.pushByte v) s (s.failedWith 0x0C 0x12)) ∧
      (p.leafqCap < s.leafq.length + 1 → Runs p (.pushLeaf v) s (s.failedWith 0x0C 0x13))) ∧
    (s.err = false → 255 < v.toNat →
      Runs p (.pushSym v) s (s.failedWith 0x0B 0x10) ∧ Runs p (.pushByte v) s (s.failedWith 0x0B 0x12) ∧
      Runs p (.pushLeaf v) s (s.failedWith 0x0B 0x13))

/-- 41_queue.md R112: PUSH_BIT. Its legal words; success; `InvalidBitValue` for every value but 0 and 1; `Overflow` on a full queue. -/
def Obligations.PushBitAppendsOrFails : Prop :=
  (decodeInstr 0x00000011 = some (.pushBit 0) ∧ decodeInstr 0x00000111 = some (.pushBit 1)) ∧
  ∀ (p : Params) (s : State) (v : Opd), decodeInstr (encodeWord 0x11 v) = some (.pushBit v) ∧ (s.err = false →
    (v.toNat ≤ 1 → s.bitq.length + 1 ≤ p.bitqCap →
      Runs p (.pushBit v) s { s with bitq := s.bitq ++ [decide (v.toNat = 1)] } ∧
      ({ s with bitq := s.bitq ++ [decide (v.toNat = 1)] } : State).statusReg.getLsbD 6 = false) ∧
    (1 < v.toNat → Runs p (.pushBit v) s (s.failedWith 0x01 0x11)) ∧
    (v.toNat ≤ 1 → p.bitqCap < s.bitq.length + 1 → Runs p (.pushBit v) s (s.failedWith 0x0C 0x11)))

/-- 41_queue.md R115 to R119: the head of the queue moves, zero-extended, into RESULT, and the queue's empty flag is set when it is now
empty; on an empty queue the command fails with `UnexpectedEof` and RESULT keeps its value; an operand makes the word illegal. -/
def Obligations.PopsMoveTheHeadToResult : Prop :=
  (TakesNoOperand 0x18 .popSym ∧ TakesNoOperand 0x19 .popBit ∧ TakesNoOperand 0x1A .popByte ∧ TakesNoOperand 0x1B .popLeaf) ∧
  ∀ (p : Params) (s : State), s.err = false →
    (∀ x rest, s.symq = x :: rest → ∃ u, Runs p .popSym s u ∧
      u = { s with symq := rest, result := BitVec.ofNat 32 x.toNat } ∧ (u.statusReg.getLsbD 5 = true ↔ rest = [])) ∧
    (∀ x rest, s.bitq = x :: rest → ∃ u, Runs p .popBit s u ∧
      u = { s with bitq := rest, result := if x then 1 else 0 } ∧ (u.statusReg.getLsbD 6 = true ↔ rest = [])) ∧
    (∀ x rest, s.byteq = x :: rest → ∃ u, Runs p .popByte s u ∧
      u = { s with byteq := rest, result := BitVec.ofNat 32 x.toNat } ∧ (u.statusReg.getLsbD 7 = true ↔ rest = [])) ∧
    (∀ x rest, s.leafq = x :: rest → ∃ u, Runs p .popLeaf s u ∧
      u = { s with leafq := rest, result := BitVec.ofNat 32 x.toNat } ∧ (u.statusReg.getLsbD 8 = true ↔ rest = [])) ∧
    (s.symq = [] → Runs p .popSym s (s.failedWith 0x09 0x18)) ∧
    (s.bitq = [] → Runs p .popBit s (s.failedWith 0x09 0x19)) ∧
    (s.byteq = [] → Runs p .popByte s (s.failedWith 0x09 0x1A)) ∧
    (s.leafq = [] → Runs p .popLeaf s (s.failedWith 0x09 0x1B))

/-! Tree commands -/

/-- 42_tree.md R130: `parse` satisfies the rule's own recursive equations, with no bound in them, and each call consumes at least one bit,
so the bound len(bits) on the calls that `parse` carries (log entry 6) is never met: a larger one changes nothing. -/
def Obligations.ParseFollowsItsEquations : Prop :=
  (∀ lv, parse [] lv = none) ∧
  (∀ bits, parse (false :: bits) [] = none) ∧
  (∀ bits x lv, parse (false :: bits) (x :: lv) = some (.leaf x, bits, lv)) ∧
  (∀ bits lv, parse bits lv = none → parse (true :: bits) lv = none) ∧
  (∀ bits lv z bits₁ lv₁, parse bits lv = some (z, bits₁, lv₁) → parse bits₁ lv₁ = none → parse (true :: bits) lv = none) ∧
  (∀ bits lv z bits₁ lv₁ o bits₂ lv₂, parse bits lv = some (z, bits₁, lv₁) → parse bits₁ lv₁ = some (o, bits₂, lv₂) →
    parse (true :: bits) lv = some (.node z o, bits₂, lv₂)) ∧
  (∀ bits lv t bits₁ lv₁, parse bits lv = some (t, bits₁, lv₁) → bits₁.length < bits.length) ∧
  (∀ n bits lv, bits.length ≤ n → parseWithin n bits lv = parse bits lv)

/-- 42_tree.md R131 with R130 and R132: TREE_LOAD succeeds exactly when BITQ starts with the shape of a well-formed tree whose leaves are
LEAFQ, and then installs that tree, removes exactly the shape, and empties LEAFQ; in every other case, the rule's list among them, it fails
with `MalformedTree`. -/
def Obligations.TreeLoadInvertsFlattenOrFails : Prop :=
  TakesNoOperand 0x20 .treeLoad ∧
  ∀ (p : Params) (s : State), s.err = false →
    (∀ (t : Tree) (rest : List Bit), t.wellFormed = true → s.bitq = t.shape ++ rest → s.leafq = t.leaves →
      ∃ u, Runs p .treeLoad s u ∧ u = { s with tree := .loaded t, bitq := rest, leafq := [] } ∧
        u.statusReg.getLsbD 2 = true ∧ (readReg 0x24 u).toNat = t.leaves.length ∧ u.statusReg.getLsbD 8 = true ∧
        (u.statusReg.getLsbD 6 = true ↔ rest = [])) ∧
    ((∀ (t : Tree) (rest : List Bit), t.wellFormed = true → s.bitq = t.shape ++ rest → s.leafq ≠ t.leaves) →
      Runs p .treeLoad s (s.failedWith 0x04 0x20)) ∧
    (parse s.bitq s.leafq = none → Runs p .treeLoad s (s.failedWith 0x04 0x20)) ∧
    (∀ x bits lv, parse s.bitq s.leafq = some (.leaf x, bits, lv) → Runs p .treeLoad s (s.failedWith 0x04 0x20)) ∧
    (∀ t bits x lv, parse s.bitq s.leafq = some (t, bits, x :: lv) → Runs p .treeLoad s (s.failedWith 0x04 0x20)) ∧
    (∀ t bits lv, parse s.bitq s.leafq = some (t, bits, lv) → ¬ t.leaves.Nodup → Runs p .treeLoad s (s.failedWith 0x04 0x20))

/-- 42_tree.md R133: TREE_STORE appends the flattened form and keeps TREE; with no tree it commits with no change; `Overflow` if either
queue would exceed its capacity. -/
def Obligations.TreeStoreAppendsTheFlattenedTree : Prop :=
  TakesNoOperand 0x21 .treeStore ∧
  ∀ (p : Params) (s : State), s.err = false →
    (s.tree = .empty → s.CapacityInv p → Runs p .treeStore s s) ∧
    (∀ t : Tree, s.tree = .loaded t →
      (s.bitq.length + t.shape.length ≤ p.bitqCap → s.leafq.length + t.leaves.length ≤ p.leafqCap →
        ∃ u, Runs p .treeStore s u ∧ u = { s with bitq := s.bitq ++ t.shape, leafq := s.leafq ++ t.leaves } ∧
          u.statusReg.getLsbD 6 = false ∧ u.statusReg.getLsbD 8 = false) ∧
      (p.bitqCap < s.bitq.length + t.shape.length ∨ p.leafqCap < s.leafq.length + t.leaves.length →
        Runs p .treeStore s (s.failedWith 0x0C 0x21)))

/-- 42_tree.md R134: TREE_CLEAR releases the tree, with TREE already Empty too; the queues stay; TREE_VALID and TREE_LEAVES become 0. -/
def Obligations.TreeClearReleasesTheTree : Prop :=
  TakesNoOperand 0x22 .treeClear ∧
  ∀ (p : Params) (s : State), s.err = false → ∃ u, Runs p .treeClear s u ∧ u = { s with tree := .empty } ∧
    u.statusReg.getLsbD 2 = false ∧ readReg 0x24 u = 0

/-- 42_tree.md R135: the shape-length invariant. -/
def Obligations.ShapeLengthFollowsLeafCount : Prop :=
  ∀ t : Tree, t.wellFormed = true →
    t.shape.length = 2 * t.leaves.length - 1 ∧ t.shape.count false = t.leaves.length ∧ t.shape.count true = t.leaves.length - 1

/-- 42_tree.md R136: for every well-formed t and every bit list rest, parse (shape ++ rest) leaves = (t, rest, []); hence TREE_STORE on
empty queues and then TREE_LOAD restores TREE and leaves the queues empty. -/
def Obligations.StoreThenLoadRestoresTheTree : Prop :=
  (∀ (t : Tree) (rest : List Bit), t.wellFormed = true → parse (t.shape ++ rest) t.leaves = some (t, rest, [])) ∧
  (∀ (p : Params) (s : State) (t : Tree), s.Inv p → s.err = false → s.tree = .loaded t → s.bitq = [] → s.leafq = [] →
    ∃ u, Runs p .treeStore s u ∧ Runs p .treeLoad u s ∧
      Runs p .treeLoad { u with tree := .empty } s)

/-- 10_state.md R29's consequences for a well-formed tree: 2..256 leaves, 2c - 1 nodes, at most 511, depth at most c - 1. -/
def Obligations.WellFormedTreesAreBounded : Prop :=
  ∀ t : Tree, t.wellFormed = true →
    2 ≤ t.leaves.length ∧ t.leaves.length ≤ 256 ∧ t.nodes = 2 * t.leaves.length - 1 ∧ t.nodes ≤ 511 ∧
    t.depth ≤ t.leaves.length - 1

/-! Encoder and decoder -/

/-- 10_state.md R31: a code is defined exactly for the leaves of the tree, is the path to the leaf, has length 1..depth, at most 255, and
the codes are prefix-free. -/
def Obligations.CodesArePrefixFree : Prop :=
  (∀ x, (.leaf x : Tree).code x = some []) ∧
  (∀ (z o : Tree) (x : Byte), x ∈ z.leaves → (.node z o : Tree).code x = (z.code x).map (false :: ·)) ∧
  (∀ (z o : Tree) (x : Byte), (.node z o : Tree).wellFormed = true → x ∈ o.leaves →
    (.node z o : Tree).code x = (o.code x).map (true :: ·)) ∧
  ∀ t : Tree, t.wellFormed = true →
    (∀ x, (∃ c, t.code x = some c) ↔ x ∈ t.leaves) ∧
    (∀ x c, t.code x = some c → 1 ≤ c.length ∧ c.length ≤ t.depth ∧ c.length ≤ 255) ∧
    (∀ x y c d, t.code x = some c → t.code y = some d → c <+: d → x = y)

/-- 43_codec.md R151 with R150: ENCODE drains SYMQ and appends the codes of its symbols in order; `UnknownSymbol` over the whole of SYMQ
before `Overflow`; an empty SYMQ commits with no change, with TREE Empty too. -/
def Obligations.EncodeAppendsTheCodes : Prop :=
  TakesNoOperand 0x30 .encode ∧
  ∀ (p : Params) (s : State), s.err = false →
    (s.symq = [] → s.bitq.length ≤ p.bitqCap → Runs p .encode s s ∧ s.statusReg.getLsbD 5 = true) ∧
    (∀ t out, s.tree = .loaded t → (∀ x ∈ s.symq, x ∈ t.leaves) → out = (s.symq.flatMap fun x => (t.code x).getD []) →
      (s.bitq.length + out.length ≤ p.bitqCap →
        ∃ u, Runs p .encode s u ∧ u = { s with bitq := s.bitq ++ out, symq := [] } ∧
          u.statusReg.getLsbD 5 = true ∧ (out ≠ [] → u.statusReg.getLsbD 6 = false)) ∧
      (p.bitqCap < s.bitq.length + out.length → Runs p .encode s (s.failedWith 0x0C 0x30))) ∧
    (∀ t, s.tree = .loaded t → (∃ x ∈ s.symq, x ∉ t.leaves) → Runs p .encode s (s.failedWith 0x03 0x30)) ∧
    (s.tree = .empty → s.symq ≠ [] → Runs p .encode s (s.failedWith 0x03 0x30))

/-- 43_codec.md R153 with R152: DECODE drains BITQ, appends the decoded symbols, and sets DROP_COUNT and DANGLING; with no tree it drops
every bit; `Overflow` if SYMQ would exceed its capacity. -/
def Obligations.DecodeDrainsTheBits : Prop :=
  TakesNoOperand 0x31 .decode ∧
  ∀ (p : Params) (s : State), s.err = false → ∀ out k,
    (s.tree = .empty ∧ out = [] ∧ k = s.bitq.length ∨ ∃ t, s.tree = .loaded t ∧ decodeBits t s.bitq = (out, k)) →
      (s.symq.length + out.length ≤ p.symqCap →
        ∃ u, Runs p .decode s u ∧
          u = { s with symq := s.symq ++ out, bitq := [], dropCount := BitVec.ofNat 32 k, dangling := decide (k ≠ 0) } ∧
          u.statusReg.getLsbD 3 = decide (k ≠ 0) ∧ readReg 0x28 u = BitVec.ofNat 32 k ∧ u.statusReg.getLsbD 6 = true ∧
          (out ≠ [] → u.statusReg.getLsbD 5 = false)) ∧
      (p.symqCap < s.symq.length + out.length → Runs p .decode s (s.failedWith 0x0C 0x31))

/-- 43_codec.md R155: decoding characterised. The decoded symbols are the ones whose codes, followed by a list p of length k that is
empty or a proper prefix of some code, make up the bits; and the codes are complete. -/
def Obligations.DecodingIsCharacterised : Prop :=
  ∀ t : Tree, t.wellFormed = true →
    (∀ (bits : List Bit) (out : List Byte) (k : Nat),
      decodeBits t bits = (out, k) ↔
        ∃ e p, encodeBits t out = some e ∧ bits = e ++ p ∧ p.length = k ∧
          (p = [] ∨ ∃ x c, t.code x = some c ∧ p <+: c ∧ p ≠ c)) ∧
    ∀ bits : List Bit, ∃ x c, t.code x = some c ∧ (bits <+: c ∨ c <+: bits)

/-- 43_codec.md R152: on exit k is at most depth(t) - 1; so a DECODE with a loaded tree leaves DROP_CNT at most 254 (10_state.md R47). -/
def Obligations.DroppedBitsAreBounded : Prop :=
  (∀ (t : Tree) (bits : List Bit), t.wellFormed = true → (decodeBits t bits).2 ≤ t.depth - 1) ∧
  (∀ (p : Params) (s u : State) (t : Tree), s.Inv p → s.err = false → s.tree = .loaded t → Runs p .decode s u → u.err = false →
    (readReg 0x28 u).toNat ≤ 254)

/-- 43_codec.md R154: for every well-formed t and every list of its symbols, decodeBits t (encodeBits t syms) = (syms, 0); so ENCODE
and then DECODE, from an empty BITQ, brings the symbols back to SYMQ with DANGLING = 0. -/
def Obligations.EncodeThenDecodeRestoresTheSymbols : Prop :=
  (∀ (t : Tree) (syms : List Byte), t.wellFormed = true → (∀ x ∈ syms, x ∈ t.leaves) →
    ∃ e, encodeBits t syms = some e ∧ decodeBits t e = (syms, 0)) ∧
  (∀ (p : Params) (s u : State) (t : Tree), s.Inv p → s.err = false → s.tree = .loaded t → s.bitq = [] → Runs p .encode s u → u.err = false →
    Runs p .decode u { s with dropCount := 0, dangling := false })

/-! Bit packing -/

/-- 44_pack.md R170 with 20_memory.md R64: stream bit i is at byte i div 8, bit i mod 8; every position of the last byte at or above the
final count is 0; there are (n + 7) div 8 bytes; the final count is ((n - 1) mod 8) + 1, and 8 for no bits. -/
def Obligations.PackPlacesBitsLeastSignificantFirst : Prop :=
  ∀ bits : List Bit,
    (packBits bits).1.length = (bits.length + 7) / 8 ∧
    (packBits bits).2 = (if bits.length = 0 then 8 else (bits.length - 1) % 8 + 1) ∧
    (∀ i, i < bits.length → ((packBits bits).1.getD (i / 8) 0).getLsbD (i % 8) = bits.getD i false) ∧
    (∀ j, (packBits bits).2 ≤ j → ((packBits bits).1.getLastD 0).getLsbD j = false)

/-- 44_pack.md R171: PACK drains BITQ into bytes appended to BYTEQ and sets FINAL_VALID; `Overflow` if BYTEQ would exceed its capacity. -/
def Obligations.PackDrainsTheBits : Prop :=
  TakesNoOperand 0x40 .pack ∧
  ∀ (p : Params) (s : State), s.err = false →
    (s.byteq.length + (s.bitq.length + 7) / 8 ≤ p.byteqCap →
      ∃ u, Runs p .pack s u ∧
        u = { s with byteq := s.byteq ++ (packBits s.bitq).1, bitq := [],
                     finalValid := if s.bitq.length = 0 then 8 else (s.bitq.length - 1) % 8 + 1 } ∧
        (readReg 0x10 u).toNat = u.finalValid ∧ u.statusReg.getLsbD 6 = true ∧ (s.bitq ≠ [] → u.statusReg.getLsbD 7 = false)) ∧
    (p.byteqCap < s.byteq.length + (s.bitq.length + 7) / 8 → Runs p .pack s (s.failedWith 0x0C 0x40))

/-- 44_pack.md R173 with R172: UNPACK drains BYTEQ into 8*(m - 1) + FINAL_VALID bits, padding ignored, FINAL_VALID kept; an empty BYTEQ is
`UnexpectedEof` unless FINAL_VALID is 8; then `Overflow`. -/
def Obligations.UnpackDrainsTheBytes : Prop :=
  TakesNoOperand 0x41 .unpack ∧
  ∀ (p : Params) (s : State), s.err = false →
    (s.byteq = [] → s.finalValid = 8 → s.bitq.length ≤ p.bitqCap → Runs p .unpack s s ∧ s.statusReg.getLsbD 7 = true) ∧
    (s.byteq = [] → s.finalValid ≠ 8 → Runs p .unpack s (s.failedWith 0x09 0x41)) ∧
    (s.byteq ≠ [] →
      (s.bitq.length + (8 * (s.byteq.length - 1) + s.finalValid) ≤ p.bitqCap →
        ∃ (r : List Bit) (u : State), r.length = 8 * (s.byteq.length - 1) + s.finalValid ∧
          (∀ i, i < r.length → r.getD i false = (s.byteq.getD (i / 8) 0).getLsbD (i % 8)) ∧
          Runs p .unpack s u ∧ u = { s with bitq := s.bitq ++ r, byteq := [] } ∧
          u.statusReg.getLsbD 7 = true ∧ (r ≠ [] → u.statusReg.getLsbD 6 = false)) ∧
      (p.bitqCap < s.bitq.length + (8 * (s.byteq.length - 1) + s.finalValid) →
        Runs p .unpack s (s.failedWith 0x0C 0x41)))

/-- 44_pack.md R174: SET_FINAL sets FINAL_VALID, which FINAL reads, to an operand of 1..8; any other operand is `InvalidOperand`. -/
def Obligations.SetFinalSetsTheFinalCount : Prop :=
  ∀ (p : Params) (s : State) (v : Opd), decodeInstr (encodeWord 0x42 v) = some (.setFinal v) ∧ (s.err = false →
    (1 ≤ v.toNat → v.toNat ≤ 8 → ∃ u, Runs p (.setFinal v) s u ∧ u = { s with finalValid := v.toNat } ∧
      (readReg 0x10 u).toNat = v.toNat) ∧
    (v.toNat = 0 ∨ 8 < v.toNat → Runs p (.setFinal v) s (s.failedWith 0x0B 0x42)))

/-- 44_pack.md R175: unpackBits (packBits bits) = bits; so PACK with BYTEQ empty and then UNPACK with BITQ empty restores BITQ exactly, with
any commands between them that leave BYTEQ and FINAL_VALID alone (and ERR at 0, and the capacity large enough). -/
def Obligations.PackThenUnpackRestoresTheBits : Prop :=
  (∀ bits : List Bit, unpackBits (packBits bits).1 (packBits bits).2 = some bits) ∧
  (∀ (p : Params) (s u w : State), s.err = false → s.byteq = [] → Runs p .pack s u → u.err = false →
    w.byteq = u.byteq → w.finalValid = u.finalValid → w.bitq = [] → w.err = false → s.bitq.length ≤ p.bitqCap →
    Runs p .unpack w { w with bitq := s.bitq, byteq := [] })

/-- 44_pack.md R176: the bytes a successful PACK of n bits appends, and the bit count they and FINAL_VALID give back. -/
def Obligations.PackedBitCountIsRecovered : Prop :=
  ∀ (p : Params) (s u : State), s.err = false → Runs p .pack s u → u.err = false →
    ∃ bytes, u.byteq = s.byteq ++ bytes ∧ bytes.length = (s.bitq.length + 7) / 8 ∧
      (1 ≤ s.bitq.length → 8 * bytes.length - (8 - u.finalValid) = s.bitq.length)

/-! Errors -/

/-- 60_exceptions.md R201: after a step that fails, every other state element has the value it had before the command. The ERRCODE is one
the block raises (R200), and ERR_OPC is the word's OPC. The premise on ERR says that the step is a failure: ERR was 0 and is 1, or ERR was
1 and the word is an exempt opcode with an operand (R206). -/
def Obligations.FailureChangesOnlyTheErrorFields : Prop :=
  ∀ (p : Params) (s t : State), Steps p s t → t.err = true →
    (s.err = false ∨ (opcOf s.pend).toNat ≤ 2 ∧ opdOf s.pend ≠ 0) →
    t = { s with err := true, errCode := t.errCode, errOpc := opcOf s.pend, busy := false } ∧
    t.errCode ∈ ([0x01, 0x03, 0x04, 0x09, 0x0A, 0x0B, 0x0C] : List Byte)

/-- 60_exceptions.md R203: while ERR = 1 every word whose opcode is not NOP's, SOFT_RESET's or CLEAR_ERR's is discarded with no effect but
the clearing of BUSY, illegal words and bad operands included. -/
def Obligations.ErrGateDiscardsEveryOtherCommand : Prop :=
  ∀ (p : Params) (s : State), s.err = true →
    (s.busy = true → 2 < (opcOf s.pend).toNat → Steps p s { s with busy := false }) ∧
    (∀ i : Instr, i ≠ .nop → i ≠ .softReset → i ≠ .clearErr → Runs p i s s)

/-- 60_exceptions.md R206: with ERR = 1, NOP, SOFT_RESET and CLEAR_ERR with an operand fail with `IllegalCommand`, which overwrites
ERRCODE and ERR_OPC, and ERR stays 1; with operand 0 they execute and record no error. -/
def Obligations.NestedFailureOverwritesTheCode : Prop :=
  ∀ (p : Params) (s : State), s.busy = true → s.err = true → (opcOf s.pend).toNat ≤ 2 →
    (opdOf s.pend ≠ 0 → Steps p s { s with errCode := 0x0A, errOpc := opcOf s.pend, busy := false }) ∧
    (opdOf s.pend = 0 → opcOf s.pend = 0x00 → Steps p s { s with busy := false }) ∧
    (opdOf s.pend = 0 → opcOf s.pend ≠ 0x00 → ∃ t, Steps p s t ∧ t.err = false ∧ t.errCode = 0 ∧ t.errOpc = 0 ∧ t.busy = false)

/-- 10_state.md R35, 60_exceptions.md R205: only CLEAR_ERR and SOFT_RESET clear a recorded error; OVERRUN too (R37). -/
def Obligations.ErrorsStayUntilAcknowledged : Prop :=
  ∀ (p : Params) (s t : State), Steps p s t →
    (s.err = true → t.err = false → s.pend = 0x00000001 ∨ s.pend = 0x00000002) ∧
    (s.overrun = true → t.overrun = false → s.pend = 0x00000001 ∨ s.pend = 0x00000002) ∧
    (s.overrun = false → t.overrun = false)

/-- 10_state.md R23 to R26: the only commands that change each queue. -/
def Obligations.QueuesChangeOnlyThroughTheirCommands : Prop :=
  ∀ (p : Params) (s t : State), Steps p s t →
    (t.symq ≠ s.symq → opcOf s.pend ∈ ([0x01, 0x10, 0x18, 0x30, 0x31] : List Byte)) ∧
    (t.bitq ≠ s.bitq → opcOf s.pend ∈ ([0x01, 0x11, 0x19, 0x20, 0x21, 0x30, 0x31, 0x40, 0x41] : List Byte)) ∧
    (t.byteq ≠ s.byteq → opcOf s.pend ∈ ([0x01, 0x12, 0x1A, 0x40, 0x41] : List Byte)) ∧
    (t.leafq ≠ s.leafq → opcOf s.pend ∈ ([0x01, 0x13, 0x1B, 0x20, 0x21] : List Byte))

/-- 10_state.md R28, R33, R34, R36: the only commands that change TREE, FINAL_VALID, RESULT and the decode status. -/
def Obligations.ScalarsChangeOnlyThroughTheirCommands : Prop :=
  ∀ (p : Params) (s t : State), Steps p s t →
    (t.tree ≠ s.tree → opcOf s.pend ∈ ([0x01, 0x20, 0x22] : List Byte)) ∧
    (t.finalValid ≠ s.finalValid → opcOf s.pend ∈ ([0x01, 0x40, 0x42] : List Byte)) ∧
    (t.result ≠ s.result → opcOf s.pend ∈ ([0x01, 0x18, 0x19, 0x1A, 0x1B] : List Byte)) ∧
    (t.dropCount ≠ s.dropCount ∨ t.dangling ≠ s.dangling → opcOf s.pend ∈ ([0x01, 0x31] : List Byte))

/-! Reset and invariants -/

/-- 70_reset_and_hazards.md R231: the registers after reset. -/
def Obligations.RegistersAfterReset : Prop :=
  readReg 0x04 State.reset = 0x000001E0 ∧ readReg 0x10 State.reset = 0x00000008 ∧
    ∀ off, off ≠ 0x04 → off ≠ 0x10 → readReg off State.reset = 0

/-- 70_reset_and_hazards.md R230: a hardware reset, in any state and with a command pending too, sets every element to its reset value. -/
def Obligations.HardwareResetSetsEveryElement : Prop :=
  ∀ (p : Params) (s : State), stepEvent p .hardReset s = .next
    { symq := [], bitq := [], byteq := [], leafq := [], tree := .empty, finalValid := 8, result := 0, err := false, errCode := 0,
      errOpc := 0, dangling := false, dropCount := 0, overrun := false, busy := false, pend := 0 }

/-- The invariant of 10_state.md holds right after reset, on every legal instance, and the instance that `exec` and `step` are is one (the
model's choice, log entry 2). -/
def Obligations.ResetMeetsTheInvariant : Prop :=
  (∀ p : Params, p.Legal → State.reset.Inv p) ∧ blockParams.Legal

/-- 10_state.md R27, R29, R33, R35, R36, R43: every engine step keeps the invariant, from every state that meets it. The second
half says it of `step` itself, the instance of log entry 2. -/
def Obligations.EveryStepKeepsTheInvariant : Prop :=
  (∀ (p : Params) (s t : State), s.Inv p → stepAt p s = .next t → t.Inv p) ∧
  ∀ s t : State, s.Inv blockParams → step s = .next t → t.Inv blockParams

/-- The same along every interleaving of engine steps, host accesses and hardware resets (80_host_interface.md R260). -/
def Obligations.EveryInterleavingKeepsTheInvariant : Prop :=
  ∀ (p : Params) (es : List Event) (s t : State), s.Inv p → runEvents p es s = .next t → t.Inv p

/-! The register window -/

/-- 10_state.md R41: every STATUS bit is a view of the element it names, bits 31:9 read 0, and the register reads 0x000001E0 after reset. -/
def Obligations.StatusBitsAreViews : Prop :=
  (∀ s : State,
    s.statusReg.getLsbD 0 = s.busy ∧ s.statusReg.getLsbD 1 = s.err ∧
    (s.statusReg.getLsbD 2 = true ↔ ∃ t, s.tree = .loaded t) ∧
    s.statusReg.getLsbD 3 = s.dangling ∧ s.statusReg.getLsbD 4 = s.overrun ∧
    (s.statusReg.getLsbD 5 = true ↔ s.symq.length = 0) ∧ (s.statusReg.getLsbD 6 = true ↔ s.bitq.length = 0) ∧
    (s.statusReg.getLsbD 7 = true ↔ s.byteq.length = 0) ∧ (s.statusReg.getLsbD 8 = true ↔ s.leafq.length = 0) ∧
    (∀ n, 9 ≤ n → s.statusReg.getLsbD n = false) ∧ readReg 0x04 s = s.statusReg) ∧
  readReg 0x04 State.reset = 0x000001E0

/-- 10_state.md R42 to R48: what the other offsets read as, with no wrap of a count in any state of the block. -/
def Obligations.RegistersAreViews : Prop :=
  ∀ (p : Params) (s : State), s.Inv p →
    (readReg 0x08 s).toNat = s.errOpc.toNat * 256 + s.errCode.toNat ∧
    readReg 0x0C s = s.result ∧ (readReg 0x0C s).toNat < 256 ∧
    (readReg 0x10 s).toNat = s.finalValid ∧
    (readReg 0x14 s).toNat = s.symq.length ∧ (readReg 0x18 s).toNat = s.bitq.length ∧
    (readReg 0x1C s).toNat = s.byteq.length ∧ (readReg 0x20 s).toNat = s.leafq.length ∧
    (s.tree = .empty → readReg 0x24 s = 0) ∧
    (∀ t, s.tree = .loaded t → (readReg 0x24 s).toNat = t.leaves.length ∧ 2 ≤ t.leaves.length ∧ t.leaves.length ≤ 256) ∧
    readReg 0x28 s = s.dropCount ∧
    ∀ off ∈ [0x00, 0x2C, 0x30, 0x34, 0x38, 0x3C], readReg off s = 0

/-- 80_host_interface.md R260 and 70_reset_and_hazards.md R233: a CMD write is latched while BUSY = 0, and while BUSY = 1 it is discarded
and sets OVERRUN; a write to any other offset of the window changes nothing; a read answers the register's value and changes nothing. -/
def Obligations.HostWritesLatchOrOverrun : Prop :=
  ∀ (p : Params) (s : State) (v : Word),
    (s.busy = false → hostWrite (wordAccess 0x00) v s = .ok { s with pend := v, busy := true }) ∧
    (s.busy = true → hostWrite (wordAccess 0x00) v s = .ok { s with overrun := true }) ∧
    ∀ off, off % 4 = 0 → off < 0x40 →
      (off ≠ 0x00 → hostWrite (wordAccess off) v s = .ok s) ∧ hostRead (wordAccess off) s = .ok (readReg off s) ∧
      stepEvent p (.read (wordAccess off)) s = .next s

/-- 20_memory.md R61: an access of another width, misaligned, or at an offset of 0x40 or more is refused, and every other one answers. -/
def Obligations.AccessesOutsideTheSpecAreRefused : Prop :=
  ∀ (s : State) (a : Access) (v : Word),
    ((a.width ≠ 32 ∨ a.off % 4 ≠ 0 ∨ 0x40 ≤ a.off) →
      hostRead a s = .error .accessOutsideSpec ∧ hostWrite a v s = .error .accessOutsideSpec) ∧
    (a.width = 32 → a.off % 4 = 0 → a.off < 0x40 → hostRead a s = .ok (readReg a.off s) ∧ ∃ t, hostWrite a v s = .ok t)

/-- 70_reset_and_hazards.md R234: from the accepted CMD write on, along every run of host reads and writes (so until the engine's step or
a hardware reset), every register reads as it stood before the command was written, but for STATUS.BUSY, which reads 1, and for
STATUS.OVERRUN, which a CMD write discarded meanwhile sets at once. The exception is the model's reading of 80_host_interface.md R260 against
R234 (log entry 20, DEDUCED). The state is the one before with the latch filled, so the pending command runs on it. -/
def Obligations.ReadsWhileBusySeeTheStateBefore : Prop :=
  ∀ (p : Params) (s u t : State) (w : Word) (es : List Event), s.busy = false → hostWrite (wordAccess 0x00) w s = .ok u →
    (∀ e ∈ es, e ≠ .engine ∧ e ≠ .hardReset) → runEvents p es u = .next t →
    t = { s with pend := w, busy := true, overrun := t.overrun } ∧
    (t.overrun = true ↔ s.overrun = true ∨ ∃ v, .write (wordAccess 0x00) v ∈ es) ∧
    (∀ off, off ≠ 0x04 → readReg off t = readReg off s) ∧
    readReg 0x04 t = readReg 0x04 s ||| 0x00000001 ||| (if t.overrun then 0x00000010 else 0)

/-- 20_memory.md R71: commands take effect one at a time, in the order of the accepted CMD writes. Along any interleaving of engine steps,
accepted and discarded writes and reads that starts and ends idle, every element but OVERRUN (which a discarded write sets) is what issuing
the accepted words in order leaves. -/
def Obligations.AnyInterleavingIsSequential : Prop :=
  ∀ (p : Params) (es : List Event) (s t : State), s.busy = false → Event.hardReset ∉ es → runEvents p es s = .next t → t.busy = false →
    { t with overrun := false } = { issueAll p (acceptedWords p es s) s with overrun := false }

/-- 80_host_interface.md R261: issuing a word to an idle block is one accepted write and one engine step, and ends idle. -/
def Obligations.IssueIsOneWriteAndOneStep : Prop :=
  ∀ (p : Params) (s : State) (w : Word), s.busy = false →
    Steps p { s with pend := w, busy := true } (issue p w s) ∧ (issue p w s).busy = false

/-! The host-side reference -/

/-- 80_host_interface.md R280 (a): parse (serialize c) = c for every argument that meets R279's requirements. -/
def Obligations.ContainerRoundTrips : Prop :=
  ∀ (m : Magic) (c : Container), c.Serializable → parseContainer m (serialize m c) = .ok c

/-- 80_host_interface.md R278, R272: whatever parses is a container: it meets R279's requirements, and serializing it gives the bytes
back. -/
def Obligations.ParsedContainersSerializeBack : Prop :=
  ∀ (m : Magic) (bytes : List Byte) (c : Container), parseContainer m bytes = .ok c → c.Serializable ∧ serialize m c = bytes

/-- 80_host_interface.md R264: folding lowers the bytes 0x61..0x7A by 0x20 and leaves every other byte; with FOLD_CASE false it changes
nothing. -/
def Obligations.FoldingLowersSmallLettersOnly : Prop :=
  ∀ (hp : HostParams) (text : List Byte),
    (hp.foldCase = false → foldText hp text = text) ∧
    (hp.foldCase = true → (foldText hp text).length = text.length ∧
      ∀ i, i < text.length →
        (0x61 ≤ (text.getD i 0).toNat → (text.getD i 0).toNat ≤ 0x7A →
          ((foldText hp text).getD i 0).toNat = (text.getD i 0).toNat - 0x20) ∧
        ((text.getD i 0).toNat < 0x61 ∨ 0x7A < (text.getD i 0).toNat → (foldText hp text).getD i 0 = text.getD i 0))

/-- 80_host_interface.md R266: the builder fails, with `InsufficientSymbols` (0x02), exactly when fewer than 2 distinct symbols occur, the
empty text among them. -/
def Obligations.BuilderNeedsTwoDistinctSymbols : Prop :=
  ErrorKind.insufficientSymbols.code = 0x02 ∧
  ∀ (hp : HostParams) (x : List Byte),
    ((∃ a b, a ∈ x ∧ b ∈ x ∧ a ≠ b) → ∃ t, buildTree hp x = .ok t) ∧
    ((∀ a b, a ∈ x → b ∈ x → a = b) → buildTree hp x = .error .insufficientSymbols) ∧
    buildTree hp [] = .error .insufficientSymbols

/-- 80_host_interface.md R270: a built tree is well formed, and its leaves are exactly the symbols of the text. -/
def Obligations.BuiltTreesAreWellFormed : Prop :=
  ∀ (hp : HostParams) (x : List Byte) (t : Tree), buildTree hp x = .ok t → t.wellFormed = true ∧ ∀ b, b ∈ t.leaves ↔ b ∈ x

/-- 80_host_interface.md R280 (b): decompress (compress text) = fold text, for every text with at least 2 distinct symbols after folding,
when the capacities suffice. The capacities are bounds from MAX_CODE_LEN (00_scope.md R6); each run may start in any state. -/
def Obligations.DecompressOfCompressIsTheFoldedText : Prop :=
  ∀ (p : Params) (hp : HostParams) (text : List Byte) (s s' : State), p.Legal →
    (∃ a b, a ∈ foldText hp text ∧ b ∈ foldText hp text ∧ a ≠ b) →
    text.length ≤ p.symqCap → 511 + 255 * text.length ≤ p.bitqCap →
    511 + 255 * text.length ≤ 8 * p.byteqCap →
    ∃ bytes s₁ s₂, compress p hp text s = .ok (bytes, s₁) ∧ decompress p hp bytes s' = .ok (foldText hp text, s₂)

/-! The instance that `exec` and `step` are -/

/-- 00_scope.md R7, which makes the parameters an argument of the block: `exec` and `step`, whose types take none, are one instance of it,
the model's choice of log entries 1 and 2. -/
def Obligations.ExecAndStepAreOneInstance : Prop :=
  (∀ (i : Instr) (s : State), exec i s = execAt blockParams i s) ∧ (∀ s : State, step s = stepAt blockParams s)
end

