-- ==== Sys2Proof/Laws/Tree.lean ====
section
/-! SUPPORT. Trees, flatten and parse, and codes: the small laws the statements rest on. -/

namespace Sys2Proof.Machine


/-- R132: a shape has at least one bit. -/
theorem Tree.shape_ne_nil (t : Tree) : t.shape ≠ [] := by
  cases t <;> simp [Tree.shape]

/-- R11: a tree has at least one leaf. -/
theorem Tree.leaves_ne_nil (t : Tree) : t.leaves ≠ [] := by
  induction t with
  | leaf s => simp [Tree.leaves]
  | node z o hz ho => simp [Tree.leaves, hz]

theorem Tree.leaves_length_pos (t : Tree) : 1 ≤ t.leaves.length :=
  List.length_pos_iff.mpr t.leaves_ne_nil

/-- 42_tree.md R135, for every tree: one bit less than twice the leaves. -/
theorem Tree.shape_length (t : Tree) : t.shape.length + 1 = 2 * t.leaves.length := by
  induction t with
  | leaf s => rfl
  | node z o hz ho => simp [Tree.shape, Tree.leaves]; omega

/-- R135: a zero for each leaf. -/
theorem Tree.shape_count_false (t : Tree) : t.shape.count false = t.leaves.length := by
  induction t with
  | leaf s => rfl
  | node z o hz ho => simp [Tree.shape, Tree.leaves, hz, ho]

/-- R135: a one for each internal node. -/
theorem Tree.shape_count_true (t : Tree) : t.shape.count true + 1 = t.leaves.length := by
  induction t with
  | leaf s => rfl
  | node z o hz ho => simp [Tree.shape, Tree.leaves]; omega

/-- 10_state.md R29: 2c - 1 nodes. -/
theorem Tree.nodes_eq (t : Tree) : t.nodes + 1 = 2 * t.leaves.length := by
  induction t with
  | leaf s => rfl
  | node z o hz ho => simp [Tree.nodes, Tree.leaves]; omega

/-- R29: depth at most c - 1. -/
theorem Tree.depth_lt_leaves (t : Tree) : t.depth + 1 ≤ t.leaves.length := by
  induction t with
  | leaf s => simp [Tree.depth, Tree.leaves]
  | node z o hz ho =>
    have := z.leaves_length_pos
    have := o.leaves_length_pos
    simp [Tree.depth, Tree.leaves]; omega

/-- R29 (b), as the library says it. -/
theorem distinct_iff_nodup (xs : List Byte) : distinct xs = true ↔ xs.Nodup := by
  induction xs with
  | nil => simp [distinct]
  | cons x xs ih => simp [distinct, ih]

/-- R29: at most 256 distinct bytes. -/
theorem nodup_bytes_length {xs : List Byte} (h : xs.Nodup) : xs.length ≤ 256 := by
  have h1 : (xs.map BitVec.toNat).Nodup := h.map (fun a b hab => BitVec.eq_of_toNat_eq hab)
  have h2 : (xs.map BitVec.toNat) ⊆ List.range 256 := by
    intro n hn
    obtain ⟨b, -, rfl⟩ := List.mem_map.mp hn
    exact List.mem_range.mpr b.isLt
  have := (List.subperm_of_subset h1 h2).length_le
  simpa using this

/-- R29: well-formedness, with distinctness as the library says it. -/
theorem Tree.wellFormed_iff (t : Tree) : t.wellFormed = true ↔ t.isNode = true ∧ t.leaves.Nodup := by
  simp [Tree.wellFormed, distinct_iff_nodup]

/-- R130, R132: what parse consumed is the flattened form of what it returns. -/
theorem parseWithin_sound {n : Nat} {bits : List Bit} {lv : List Byte} {t : Tree} {bits' : List Bit} {lv' : List Byte}
    (h : parseWithin n bits lv = some (t, bits', lv')) : bits = t.shape ++ bits' ∧ lv = t.leaves ++ lv' := by
  induction n generalizing bits lv t bits' lv' with
  | zero => simp [parseWithin] at h
  | succ n ih =>
    cases bits with
    | nil => simp [parseWithin] at h
    | cons b bits =>
      cases b with
      | false =>
        cases lv with
        | nil => simp [parseWithin] at h
        | cons s lv =>
          simp [parseWithin] at h
          obtain ⟨rfl, rfl, rfl⟩ := h
          exact ⟨rfl, rfl⟩
      | true =>
        simp only [parseWithin] at h
        split at h
        · cases h
        · rename_i z b1 l1 hz
          split at h
          · cases h
          · rename_i o b2 l2 ho
            simp only [Option.some.injEq, Prod.mk.injEq] at h
            obtain ⟨rfl, rfl, rfl⟩ := h
            obtain ⟨rfl, rfl⟩ := ih hz
            obtain ⟨rfl, rfl⟩ := ih ho
            simp [Tree.shape, Tree.leaves]

/-- R130, R132: the flattened form of a tree parses to it, whatever follows, within a bound of its shape's length. -/
theorem parseWithin_complete (t : Tree) : ∀ {n : Nat} (bits : List Bit) (lv : List Byte), t.shape.length ≤ n →
    parseWithin n (t.shape ++ bits) (t.leaves ++ lv) = some (t, bits, lv) := by
  induction t with
  | leaf s =>
    intro n bits lv h
    cases n with
    | zero => simp [Tree.shape] at h
    | succ n => rfl
  | node z o hz ho =>
    intro n bits lv h
    cases n with
    | zero => simp [Tree.shape] at h
    | succ n =>
      simp only [Tree.shape, List.length_cons, List.length_append] at h
      simp [Tree.shape, Tree.leaves, parseWithin]
      rw [hz _ _ (by omega)]
      simp
      rw [ho _ _ (by omega)]

/-- R130 against R132: parse answers exactly the trees whose flattened form its inputs start with. -/
theorem parse_eq_some_iff {bits : List Bit} {lv : List Byte} {t : Tree} {bits' : List Bit} {lv' : List Byte} :
    parse bits lv = some (t, bits', lv') ↔ bits = t.shape ++ bits' ∧ lv = t.leaves ++ lv' := by
  constructor
  · exact parseWithin_sound
  · rintro ⟨rfl, rfl⟩
    exact parseWithin_complete t _ _ (by simp)

/-- R31: a code is defined exactly for the leaves. -/
theorem Tree.code_some_iff (t : Tree) (x : Byte) : (∃ c, t.code x = some c) ↔ x ∈ t.leaves := by
  induction t with
  | leaf s => simp [Tree.code, Tree.leaves, eq_comm]
  | node z o hz ho =>
    simp only [Tree.code, Tree.leaves, List.mem_append]
    by_cases hx : x ∈ z.leaves
    · obtain ⟨c, hc⟩ := hz.mpr hx
      simp [hx, hc]
    · simp [hx, ← ho]

/-- R31: a code is at most as long as the tree is deep. -/
theorem Tree.code_length_le_depth {t : Tree} {x : Byte} {c : List Bit} (h : t.code x = some c) : c.length ≤ t.depth := by
  induction t generalizing c with
  | leaf s => simp [Tree.code] at h; simp [h.2]
  | node z o hz ho =>
    simp only [Tree.code] at h
    split at h <;> simp only [Option.map_eq_some_iff] at h <;> obtain ⟨d, hd, rfl⟩ := h
    · have := hz hd; simp [Tree.depth]; omega
    · have := ho hd; simp [Tree.depth]; omega

/-- R31: under a Node root a code has at least one bit. -/
theorem Tree.code_length_pos {t : Tree} {x : Byte} {c : List Bit} (hn : t.isNode = true) (h : t.code x = some c) : 1 ≤ c.length := by
  cases t with
  | leaf s => cases hn
  | node z o =>
    simp only [Tree.code] at h
    split at h <;> simp only [Option.map_eq_some_iff] at h <;> obtain ⟨d, hd, rfl⟩ := h <;> simp

/-- R31: no code is a prefix of another symbol's. -/
theorem Tree.code_prefix_free {t : Tree} {x y : Byte} {c d : List Bit} (hx : t.code x = some c) (hy : t.code y = some d)
    (h : c <+: d) : x = y := by
  induction t generalizing c d with
  | leaf s => simp [Tree.code] at hx hy; rw [← hx.1, hy.1]
  | node z o hz ho =>
    simp only [Tree.code] at hx hy
    split at hx <;> split at hy <;> simp only [Option.map_eq_some_iff] at hx hy <;>
      obtain ⟨c, hc, rfl⟩ := hx <;> obtain ⟨d, hd, rfl⟩ := hy <;> simp at h
    · exact hz hc hd h
    · exact ho hc hd h

/-- 43_codec.md R155: every bit list starts with a code or is a proper prefix of one. -/
theorem Tree.code_complete (t : Tree) (hd : t.leaves.Nodup) (bits : List Bit) :
    (∃ x c rest, t.code x = some c ∧ bits = c ++ rest) ∨ (∃ x c, t.code x = some c ∧ bits <+: c ∧ bits ≠ c) := by
  induction t generalizing bits with
  | leaf s => exact .inl ⟨s, [], bits, by simp [Tree.code], rfl⟩
  | node z o hz ho =>
    simp only [Tree.leaves] at hd
    have hzd := hd.of_append_left
    have hod := hd.of_append_right
    have hdis := (List.nodup_append.mp hd).2.2
    cases bits with
    | nil =>
      obtain ⟨x, hx⟩ := List.exists_mem_of_ne_nil _ z.leaves_ne_nil
      obtain ⟨c, hc⟩ := (z.code_some_iff x).mpr hx
      exact .inr ⟨x, false :: c, by simp [Tree.code, hx, hc], by simp, by simp⟩
    | cons b bits =>
      cases b with
      | false =>
        have key : ∀ {x c}, z.code x = some c → (Tree.node z o).code x = some (false :: c) := by
          intro x c hc
          have hx := (z.code_some_iff x).mp ⟨c, hc⟩
          simp [Tree.code, hx, hc]
        obtain ⟨x, c, rest, hc, rfl⟩ | ⟨x, c, hc, hp, hne⟩ := hz hzd bits
        · exact .inl ⟨x, false :: c, rest, key hc, rfl⟩
        · exact .inr ⟨x, false :: c, key hc, by simpa using hp, by simpa using hne⟩
      | true =>
        have key : ∀ {x c}, o.code x = some c → (Tree.node z o).code x = some (true :: c) := by
          intro x c hc
          have hx := (o.code_some_iff x).mp ⟨c, hc⟩
          have hx' : x ∉ z.leaves := fun hz' => hdis x hz' x hx rfl
          simp [Tree.code, hx', hc]
        obtain ⟨x, c, rest, hc, rfl⟩ | ⟨x, c, hc, hp, hne⟩ := ho hod bits
        · exact .inl ⟨x, true :: c, rest, key hc, rfl⟩
        · exact .inr ⟨x, true :: c, key hc, by simpa using hp, by simpa using hne⟩

end Sys2Proof.Machine
end

