-- ==== Sys2Proof/Laws/Codec.lean ====
section
/-! SUPPORT. The encoder's and the decoder's functions, said once. -/

namespace Sys2Proof.Machine

/-- R152: the passes over a whole code emit its symbol and start again at the root. -/
theorem decodePasses_code {pos : Tree} {x : Byte} {c : List Bit} (h : pos.code x = some c) (root : Tree) (n k : Nat) (bits : List Bit) :
    decodePasses root (c.length + (n + 1)) pos k (c ++ bits) =
      (x :: (decodePasses root n root 0 bits).1, (decodePasses root n root 0 bits).2) := by
  induction pos generalizing c k with
  | leaf s =>
    simp [Tree.code] at h
    obtain ⟨rfl, rfl⟩ := h
    simp [decodePasses]
  | node z o hz ho =>
    simp only [Tree.code] at h
    split at h <;> simp only [Option.map_eq_some_iff] at h <;> obtain ⟨d, hd, rfl⟩ := h
    · have := hz hd (k + 1)
      rw [show (false :: d).length + (n + 1) = (d.length + (n + 1)) + 1 by simp; omega]
      simpa [decodePasses] using this
    · have := ho hd (k + 1)
      rw [show (true :: d).length + (n + 1) = (d.length + (n + 1)) + 1 by simp; omega]
      simpa [decodePasses] using this

/-- R152: the passes over a proper prefix of a code emit nothing and count its bits. -/
theorem decodePasses_partial {pos : Tree} {x : Byte} {c p : List Bit} (h : pos.code x = some c) (hp : p <+: c) (hne : p ≠ c)
    (root : Tree) (n k : Nat) : decodePasses root (p.length + (n + 1)) pos k p = ([], k + p.length) := by
  induction pos generalizing c p k with
  | leaf s =>
    simp [Tree.code] at h
    obtain ⟨rfl, rfl⟩ := h
    simp at hp; exact absurd hp hne
  | node z o hz ho =>
    cases p with
    | nil => simp [decodePasses]
    | cons b p =>
      simp only [Tree.code] at h
      rw [show (b :: p).length + (n + 1) = (p.length + (n + 1)) + 1 by simp; omega]
      split at h <;> simp only [Option.map_eq_some_iff] at h <;> obtain ⟨d, hd, rfl⟩ := h <;> simp at hp hne <;>
        obtain ⟨rfl, hp⟩ := hp <;> simp only [forall_const] at hne
      · have := hz hd hp (by simpa using hne) (k + 1)
        simp [decodePasses, this]; omega
      · have := ho hd hp (by simpa using hne) (k + 1)
        simp [decodePasses, this]; omega

/-- R150, second equation. -/
theorem encodeBits_cons_eq_some {t : Tree} {x : Byte} {xs : List Byte} {e : List Bit} :
    encodeBits t (x :: xs) = some e ↔ ∃ c r, t.code x = some c ∧ encodeBits t xs = some r ∧ e = c ++ r := by
  simp only [encodeBits]
  cases t.code x <;> cases encodeBits t xs <;> simp [eq_comm]

/-- R151: no symbol is unknown exactly when every one is a leaf. -/
theorem encodeBits_some_iff (t : Tree) (xs : List Byte) : (∃ e, encodeBits t xs = some e) ↔ ∀ x ∈ xs, x ∈ t.leaves := by
  induction xs with
  | nil => simp [encodeBits]
  | cons x xs ih =>
    constructor
    · rintro ⟨e, he⟩
      obtain ⟨c, r, hc, hr, -⟩ := encodeBits_cons_eq_some.mp he
      simp only [List.mem_cons, forall_eq_or_imp]
      exact ⟨(t.code_some_iff x).mp ⟨c, hc⟩, ih.mp ⟨r, hr⟩⟩
    · intro h
      simp only [List.mem_cons, forall_eq_or_imp] at h
      obtain ⟨c, hc⟩ := (t.code_some_iff x).mpr h.1
      obtain ⟨r, hr⟩ := ih.mpr h.2
      exact ⟨c ++ r, encodeBits_cons_eq_some.mpr ⟨c, r, hc, hr, rfl⟩⟩

/-- R150: the codes in order. -/
theorem encodeBits_eq_flatMap {t : Tree} {xs : List Byte} {e : List Bit} (h : encodeBits t xs = some e) :
    e = xs.flatMap fun x => (t.code x).getD [] := by
  induction xs generalizing e with
  | nil => simp [encodeBits] at h; simp [h]
  | cons x xs ih =>
    obtain ⟨c, r, hc, hr, rfl⟩ := encodeBits_cons_eq_some.mp h
    simp [hc, ← ih hr]

/-- R31, R150: each symbol yields at least one bit. -/
theorem encodeBits_length {t : Tree} {xs : List Byte} {e : List Bit} (hn : t.isNode = true) (h : encodeBits t xs = some e) :
    xs.length ≤ e.length := by
  induction xs generalizing e with
  | nil => simp
  | cons x xs ih =>
    obtain ⟨c, r, hc, hr, rfl⟩ := encodeBits_cons_eq_some.mp h
    have := t.code_length_pos hn hc
    have := ih hr
    simp; omega

/-- R152: the passes over codes and then a partial code, within the rule's bound. -/
theorem decodePasses_encoded {t : Tree} {out : List Byte} {e p : List Bit} (hn : t.isNode = true) (he : encodeBits t out = some e)
    (hp : p = [] ∨ ∃ x c, t.code x = some c ∧ p <+: c ∧ p ≠ c) {n : Nat} (hb : e.length + out.length + p.length + 1 ≤ n) :
    decodePasses t n t 0 (e ++ p) = (out, p.length) := by
  induction out generalizing e n with
  | nil =>
    simp [encodeBits] at he
    subst he
    obtain ⟨m, rfl⟩ : ∃ m, n = p.length + (m + 1) := ⟨n - p.length - 1, by simp at hb; omega⟩
    obtain rfl | ⟨x, c, hc, hpc, hne⟩ := hp
    · cases t with
      | leaf s => cases hn
      | node z o => simp [decodePasses]
    · simpa using decodePasses_partial hc hpc hne t m 0
  | cons x xs ih =>
    obtain ⟨c, r, hc, hr, rfl⟩ := encodeBits_cons_eq_some.mp he
    obtain ⟨m, rfl⟩ : ∃ m, n = c.length + (m + 1) := ⟨n - c.length - 1, by simp at hb; omega⟩
    rw [List.append_assoc, decodePasses_code hc, ih hr (by simp at hb; omega)]

/-- R155, from right to left. -/
theorem decodeBits_encoded {t : Tree} {out : List Byte} {e p : List Bit} (hn : t.isNode = true) (he : encodeBits t out = some e)
    (hp : p = [] ∨ ∃ x c, t.code x = some c ∧ p <+: c ∧ p ≠ c) : decodeBits t (e ++ p) = (out, p.length) :=
  decodePasses_encoded hn he hp (by have := encodeBits_length hn he; simp; omega)

/-- R155: every bit list is a list of codes followed by a partial code. -/
theorem bits_decompose {t : Tree} (hw : t.wellFormed = true) (bits : List Bit) :
    ∃ out e p, encodeBits t out = some e ∧ bits = e ++ p ∧ (p = [] ∨ ∃ x c, t.code x = some c ∧ p <+: c ∧ p ≠ c) := by
  obtain ⟨hn, hd⟩ := t.wellFormed_iff.mp hw
  induction hl : bits.length using Nat.strong_induction_on generalizing bits with
  | _ n ih =>
    obtain ⟨x, c, rest, hc, rfl⟩ | h := t.code_complete hd bits
    · have := t.code_length_pos hn hc
      obtain ⟨out, e, p, he, rfl, hp⟩ := ih rest.length (by simp at hl; omega) rest rfl
      exact ⟨x :: out, c ++ e, p, encodeBits_cons_eq_some.mpr ⟨c, e, hc, he, rfl⟩, by simp, hp⟩
    · exact ⟨[], [], bits, rfl, rfl, .inr h⟩

end Sys2Proof.Machine
end

