-- ==== Sys2Proof/Laws/Decode.lean ====
section
/-! SUPPORT. The fields of a command word and the opcode map: what the decoder and the encoder do, said once. -/

namespace Sys2Proof

/-- R80: OPC of `(OPD << 8) | OPC`. -/
theorem opcOf_encodeWord (opc : Byte) (v : Opd) : opcOf (encodeWord opc v) = opc := by
  apply BitVec.eq_of_getLsbD_eq
  intro i hi
  simp [opcOf, encodeWord, hi]
  omega

/-- R80: OPD of `(OPD << 8) | OPC`. -/
theorem opdOf_encodeWord (opc : Byte) (v : Opd) : opdOf (encodeWord opc v) = v := by
  apply BitVec.eq_of_getLsbD_eq
  intro i hi
  have h₁ : 8 + i < 32 := by omega
  simp [opdOf, encodeWord, hi, h₁]

/-- R80: a word is made of its two fields, so no bit of it is outside them. -/
theorem encodeWord_opcOf_opdOf (w : Word) : encodeWord (opcOf w) (opdOf w) = w := by
  apply BitVec.eq_of_getLsbD_eq
  intro i hi
  simp [opcOf, opdOf, encodeWord]
  by_cases h : i < 8
  · simp [h, hi]
  · have h₁ : 8 + (i - 8) = i := by omega
    have h₂ : i - 8 < 24 := by omega
    have h₃ : i - 8 < 32 := by omega
    simp [h, hi, h₁, h₂, h₃]

/-- 20_memory.md R62: the four byte lanes make up the word. -/
theorem wordOfLanes_laneByte (w : Word) :
    wordOfLanes (laneByte w 0) (laneByte w 1) (laneByte w 2) (laneByte w 3) = w := by
  apply BitVec.eq_of_getLsbD_eq
  intro i hi
  simp only [wordOfLanes, laneByte, BitVec.getLsbD_append, BitVec.getLsbD_extractLsb']
  by_cases h₁ : i < 8
  · simp [h₁]
  · by_cases h₂ : i - 8 < 8
    · have : 8 + (i - 8) = i := by omega
      simp [h₁, h₂, this]
    · by_cases h₃ : i - 8 - 8 < 8
      · have : 16 + (i - 8 - 8) = i := by omega
        simp [h₁, h₂, h₃, this]
      · have : 24 + (i - 8 - 8 - 8) = i := by omega
        have h₄ : i - 8 - 8 - 8 < 8 := by omega
        simp [h₁, h₂, h₃, h₄, this]

/-- R81: a no-operand opcode spells its command exactly with OPD = 0. -/
theorem noOperand_eq_some {v : Opd} {i j : Instr} : noOperand v i = some j ↔ v = 0 ∧ i = j := by
  unfold noOperand
  split <;> simp_all

/-- R83: what the opcode map answers has that opcode and that operand. -/
theorem instrOf_eq_some {opc : Byte} {v : Opd} {i : Instr} (h : instrOf opc v = some i) :
    i.opcode = opc ∧ i.operand = v := by
  unfold instrOf at h
  split at h <;> simp only [noOperand_eq_some, Option.some.injEq, reduceCtorEq] at h <;>
    (obtain ⟨rfl, rfl⟩ := h; exact ⟨rfl, rfl⟩)

/-- The operand of a word that spells a command, and its opcode, are the command's. -/
theorem decodeInstr_eq_some {w : Word} {i : Instr} (h : decodeInstr w = some i) :
    i.opcode = opcOf w ∧ i.operand = opdOf w :=
  instrOf_eq_some h

end Sys2Proof
end

