-- ==== Sys2Proof/Laws/State.lean ====
section
/-! SUPPORT. What each named update leaves in each field of the state: one lemma per field per update, each true by rfl. -/

namespace Sys2Proof.Machine

variable (s : State)

@[simp] theorem State.setSymq_symq (q : List Byte) : (s.setSymq q).symq = q := rfl
@[simp] theorem State.setSymq_bitq (q : List Byte) : (s.setSymq q).bitq = s.bitq := rfl
@[simp] theorem State.setSymq_byteq (q : List Byte) : (s.setSymq q).byteq = s.byteq := rfl
@[simp] theorem State.setSymq_leafq (q : List Byte) : (s.setSymq q).leafq = s.leafq := rfl
@[simp] theorem State.setSymq_tree (q : List Byte) : (s.setSymq q).tree = s.tree := rfl
@[simp] theorem State.setSymq_finalValid (q : List Byte) : (s.setSymq q).finalValid = s.finalValid := rfl
@[simp] theorem State.setSymq_result (q : List Byte) : (s.setSymq q).result = s.result := rfl
@[simp] theorem State.setSymq_err (q : List Byte) : (s.setSymq q).err = s.err := rfl
@[simp] theorem State.setSymq_errCode (q : List Byte) : (s.setSymq q).errCode = s.errCode := rfl
@[simp] theorem State.setSymq_errOpc (q : List Byte) : (s.setSymq q).errOpc = s.errOpc := rfl
@[simp] theorem State.setSymq_dangling (q : List Byte) : (s.setSymq q).dangling = s.dangling := rfl
@[simp] theorem State.setSymq_dropCount (q : List Byte) : (s.setSymq q).dropCount = s.dropCount := rfl
@[simp] theorem State.setSymq_overrun (q : List Byte) : (s.setSymq q).overrun = s.overrun := rfl
@[simp] theorem State.setSymq_busy (q : List Byte) : (s.setSymq q).busy = s.busy := rfl
@[simp] theorem State.setSymq_pend (q : List Byte) : (s.setSymq q).pend = s.pend := rfl

@[simp] theorem State.setBitq_symq (q : List Bit) : (s.setBitq q).symq = s.symq := rfl
@[simp] theorem State.setBitq_bitq (q : List Bit) : (s.setBitq q).bitq = q := rfl
@[simp] theorem State.setBitq_byteq (q : List Bit) : (s.setBitq q).byteq = s.byteq := rfl
@[simp] theorem State.setBitq_leafq (q : List Bit) : (s.setBitq q).leafq = s.leafq := rfl
@[simp] theorem State.setBitq_tree (q : List Bit) : (s.setBitq q).tree = s.tree := rfl
@[simp] theorem State.setBitq_finalValid (q : List Bit) : (s.setBitq q).finalValid = s.finalValid := rfl
@[simp] theorem State.setBitq_result (q : List Bit) : (s.setBitq q).result = s.result := rfl
@[simp] theorem State.setBitq_err (q : List Bit) : (s.setBitq q).err = s.err := rfl
@[simp] theorem State.setBitq_errCode (q : List Bit) : (s.setBitq q).errCode = s.errCode := rfl
@[simp] theorem State.setBitq_errOpc (q : List Bit) : (s.setBitq q).errOpc = s.errOpc := rfl
@[simp] theorem State.setBitq_dangling (q : List Bit) : (s.setBitq q).dangling = s.dangling := rfl
@[simp] theorem State.setBitq_dropCount (q : List Bit) : (s.setBitq q).dropCount = s.dropCount := rfl
@[simp] theorem State.setBitq_overrun (q : List Bit) : (s.setBitq q).overrun = s.overrun := rfl
@[simp] theorem State.setBitq_busy (q : List Bit) : (s.setBitq q).busy = s.busy := rfl
@[simp] theorem State.setBitq_pend (q : List Bit) : (s.setBitq q).pend = s.pend := rfl

@[simp] theorem State.setByteq_symq (q : List Byte) : (s.setByteq q).symq = s.symq := rfl
@[simp] theorem State.setByteq_bitq (q : List Byte) : (s.setByteq q).bitq = s.bitq := rfl
@[simp] theorem State.setByteq_byteq (q : List Byte) : (s.setByteq q).byteq = q := rfl
@[simp] theorem State.setByteq_leafq (q : List Byte) : (s.setByteq q).leafq = s.leafq := rfl
@[simp] theorem State.setByteq_tree (q : List Byte) : (s.setByteq q).tree = s.tree := rfl
@[simp] theorem State.setByteq_finalValid (q : List Byte) : (s.setByteq q).finalValid = s.finalValid := rfl
@[simp] theorem State.setByteq_result (q : List Byte) : (s.setByteq q).result = s.result := rfl
@[simp] theorem State.setByteq_err (q : List Byte) : (s.setByteq q).err = s.err := rfl
@[simp] theorem State.setByteq_errCode (q : List Byte) : (s.setByteq q).errCode = s.errCode := rfl
@[simp] theorem State.setByteq_errOpc (q : List Byte) : (s.setByteq q).errOpc = s.errOpc := rfl
@[simp] theorem State.setByteq_dangling (q : List Byte) : (s.setByteq q).dangling = s.dangling := rfl
@[simp] theorem State.setByteq_dropCount (q : List Byte) : (s.setByteq q).dropCount = s.dropCount := rfl
@[simp] theorem State.setByteq_overrun (q : List Byte) : (s.setByteq q).overrun = s.overrun := rfl
@[simp] theorem State.setByteq_busy (q : List Byte) : (s.setByteq q).busy = s.busy := rfl
@[simp] theorem State.setByteq_pend (q : List Byte) : (s.setByteq q).pend = s.pend := rfl

@[simp] theorem State.setLeafq_symq (q : List Byte) : (s.setLeafq q).symq = s.symq := rfl
@[simp] theorem State.setLeafq_bitq (q : List Byte) : (s.setLeafq q).bitq = s.bitq := rfl
@[simp] theorem State.setLeafq_byteq (q : List Byte) : (s.setLeafq q).byteq = s.byteq := rfl
@[simp] theorem State.setLeafq_leafq (q : List Byte) : (s.setLeafq q).leafq = q := rfl
@[simp] theorem State.setLeafq_tree (q : List Byte) : (s.setLeafq q).tree = s.tree := rfl
@[simp] theorem State.setLeafq_finalValid (q : List Byte) : (s.setLeafq q).finalValid = s.finalValid := rfl
@[simp] theorem State.setLeafq_result (q : List Byte) : (s.setLeafq q).result = s.result := rfl
@[simp] theorem State.setLeafq_err (q : List Byte) : (s.setLeafq q).err = s.err := rfl
@[simp] theorem State.setLeafq_errCode (q : List Byte) : (s.setLeafq q).errCode = s.errCode := rfl
@[simp] theorem State.setLeafq_errOpc (q : List Byte) : (s.setLeafq q).errOpc = s.errOpc := rfl
@[simp] theorem State.setLeafq_dangling (q : List Byte) : (s.setLeafq q).dangling = s.dangling := rfl
@[simp] theorem State.setLeafq_dropCount (q : List Byte) : (s.setLeafq q).dropCount = s.dropCount := rfl
@[simp] theorem State.setLeafq_overrun (q : List Byte) : (s.setLeafq q).overrun = s.overrun := rfl
@[simp] theorem State.setLeafq_busy (q : List Byte) : (s.setLeafq q).busy = s.busy := rfl
@[simp] theorem State.setLeafq_pend (q : List Byte) : (s.setLeafq q).pend = s.pend := rfl

@[simp] theorem State.setTree_symq (t : TreeReg) : (s.setTree t).symq = s.symq := rfl
@[simp] theorem State.setTree_bitq (t : TreeReg) : (s.setTree t).bitq = s.bitq := rfl
@[simp] theorem State.setTree_byteq (t : TreeReg) : (s.setTree t).byteq = s.byteq := rfl
@[simp] theorem State.setTree_leafq (t : TreeReg) : (s.setTree t).leafq = s.leafq := rfl
@[simp] theorem State.setTree_tree (t : TreeReg) : (s.setTree t).tree = t := rfl
@[simp] theorem State.setTree_finalValid (t : TreeReg) : (s.setTree t).finalValid = s.finalValid := rfl
@[simp] theorem State.setTree_result (t : TreeReg) : (s.setTree t).result = s.result := rfl
@[simp] theorem State.setTree_err (t : TreeReg) : (s.setTree t).err = s.err := rfl
@[simp] theorem State.setTree_errCode (t : TreeReg) : (s.setTree t).errCode = s.errCode := rfl
@[simp] theorem State.setTree_errOpc (t : TreeReg) : (s.setTree t).errOpc = s.errOpc := rfl
@[simp] theorem State.setTree_dangling (t : TreeReg) : (s.setTree t).dangling = s.dangling := rfl
@[simp] theorem State.setTree_dropCount (t : TreeReg) : (s.setTree t).dropCount = s.dropCount := rfl
@[simp] theorem State.setTree_overrun (t : TreeReg) : (s.setTree t).overrun = s.overrun := rfl
@[simp] theorem State.setTree_busy (t : TreeReg) : (s.setTree t).busy = s.busy := rfl
@[simp] theorem State.setTree_pend (t : TreeReg) : (s.setTree t).pend = s.pend := rfl

@[simp] theorem State.setFinalValid_symq (f : Nat) : (s.setFinalValid f).symq = s.symq := rfl
@[simp] theorem State.setFinalValid_bitq (f : Nat) : (s.setFinalValid f).bitq = s.bitq := rfl
@[simp] theorem State.setFinalValid_byteq (f : Nat) : (s.setFinalValid f).byteq = s.byteq := rfl
@[simp] theorem State.setFinalValid_leafq (f : Nat) : (s.setFinalValid f).leafq = s.leafq := rfl
@[simp] theorem State.setFinalValid_tree (f : Nat) : (s.setFinalValid f).tree = s.tree := rfl
@[simp] theorem State.setFinalValid_finalValid (f : Nat) : (s.setFinalValid f).finalValid = f := rfl
@[simp] theorem State.setFinalValid_result (f : Nat) : (s.setFinalValid f).result = s.result := rfl
@[simp] theorem State.setFinalValid_err (f : Nat) : (s.setFinalValid f).err = s.err := rfl
@[simp] theorem State.setFinalValid_errCode (f : Nat) : (s.setFinalValid f).errCode = s.errCode := rfl
@[simp] theorem State.setFinalValid_errOpc (f : Nat) : (s.setFinalValid f).errOpc = s.errOpc := rfl
@[simp] theorem State.setFinalValid_dangling (f : Nat) : (s.setFinalValid f).dangling = s.dangling := rfl
@[simp] theorem State.setFinalValid_dropCount (f : Nat) : (s.setFinalValid f).dropCount = s.dropCount := rfl
@[simp] theorem State.setFinalValid_overrun (f : Nat) : (s.setFinalValid f).overrun = s.overrun := rfl
@[simp] theorem State.setFinalValid_busy (f : Nat) : (s.setFinalValid f).busy = s.busy := rfl
@[simp] theorem State.setFinalValid_pend (f : Nat) : (s.setFinalValid f).pend = s.pend := rfl

@[simp] theorem State.setResult_symq (v : Word) : (s.setResult v).symq = s.symq := rfl
@[simp] theorem State.setResult_bitq (v : Word) : (s.setResult v).bitq = s.bitq := rfl
@[simp] theorem State.setResult_byteq (v : Word) : (s.setResult v).byteq = s.byteq := rfl
@[simp] theorem State.setResult_leafq (v : Word) : (s.setResult v).leafq = s.leafq := rfl
@[simp] theorem State.setResult_tree (v : Word) : (s.setResult v).tree = s.tree := rfl
@[simp] theorem State.setResult_finalValid (v : Word) : (s.setResult v).finalValid = s.finalValid := rfl
@[simp] theorem State.setResult_result (v : Word) : (s.setResult v).result = v := rfl
@[simp] theorem State.setResult_err (v : Word) : (s.setResult v).err = s.err := rfl
@[simp] theorem State.setResult_errCode (v : Word) : (s.setResult v).errCode = s.errCode := rfl
@[simp] theorem State.setResult_errOpc (v : Word) : (s.setResult v).errOpc = s.errOpc := rfl
@[simp] theorem State.setResult_dangling (v : Word) : (s.setResult v).dangling = s.dangling := rfl
@[simp] theorem State.setResult_dropCount (v : Word) : (s.setResult v).dropCount = s.dropCount := rfl
@[simp] theorem State.setResult_overrun (v : Word) : (s.setResult v).overrun = s.overrun := rfl
@[simp] theorem State.setResult_busy (v : Word) : (s.setResult v).busy = s.busy := rfl
@[simp] theorem State.setResult_pend (v : Word) : (s.setResult v).pend = s.pend := rfl

@[simp] theorem State.setDropped_symq (k : Nat) : (s.setDropped k).symq = s.symq := rfl
@[simp] theorem State.setDropped_bitq (k : Nat) : (s.setDropped k).bitq = s.bitq := rfl
@[simp] theorem State.setDropped_byteq (k : Nat) : (s.setDropped k).byteq = s.byteq := rfl
@[simp] theorem State.setDropped_leafq (k : Nat) : (s.setDropped k).leafq = s.leafq := rfl
@[simp] theorem State.setDropped_tree (k : Nat) : (s.setDropped k).tree = s.tree := rfl
@[simp] theorem State.setDropped_finalValid (k : Nat) : (s.setDropped k).finalValid = s.finalValid := rfl
@[simp] theorem State.setDropped_result (k : Nat) : (s.setDropped k).result = s.result := rfl
@[simp] theorem State.setDropped_err (k : Nat) : (s.setDropped k).err = s.err := rfl
@[simp] theorem State.setDropped_errCode (k : Nat) : (s.setDropped k).errCode = s.errCode := rfl
@[simp] theorem State.setDropped_errOpc (k : Nat) : (s.setDropped k).errOpc = s.errOpc := rfl
@[simp] theorem State.setDropped_dangling (k : Nat) : (s.setDropped k).dangling = decide (k ≠ 0) := rfl
@[simp] theorem State.setDropped_dropCount (k : Nat) : (s.setDropped k).dropCount = BitVec.ofNat 32 k := rfl
@[simp] theorem State.setDropped_overrun (k : Nat) : (s.setDropped k).overrun = s.overrun := rfl
@[simp] theorem State.setDropped_busy (k : Nat) : (s.setDropped k).busy = s.busy := rfl
@[simp] theorem State.setDropped_pend (k : Nat) : (s.setDropped k).pend = s.pend := rfl

@[simp] theorem fail_symq (e : ErrorKind) (opc : Byte) : (fail e opc s).symq = s.symq := rfl
@[simp] theorem fail_bitq (e : ErrorKind) (opc : Byte) : (fail e opc s).bitq = s.bitq := rfl
@[simp] theorem fail_byteq (e : ErrorKind) (opc : Byte) : (fail e opc s).byteq = s.byteq := rfl
@[simp] theorem fail_leafq (e : ErrorKind) (opc : Byte) : (fail e opc s).leafq = s.leafq := rfl
@[simp] theorem fail_tree (e : ErrorKind) (opc : Byte) : (fail e opc s).tree = s.tree := rfl
@[simp] theorem fail_finalValid (e : ErrorKind) (opc : Byte) : (fail e opc s).finalValid = s.finalValid := rfl
@[simp] theorem fail_result (e : ErrorKind) (opc : Byte) : (fail e opc s).result = s.result := rfl
@[simp] theorem fail_err (e : ErrorKind) (opc : Byte) : (fail e opc s).err = true := rfl
@[simp] theorem fail_errCode (e : ErrorKind) (opc : Byte) : (fail e opc s).errCode = e.code := rfl
@[simp] theorem fail_errOpc (e : ErrorKind) (opc : Byte) : (fail e opc s).errOpc = opc := rfl
@[simp] theorem fail_dangling (e : ErrorKind) (opc : Byte) : (fail e opc s).dangling = s.dangling := rfl
@[simp] theorem fail_dropCount (e : ErrorKind) (opc : Byte) : (fail e opc s).dropCount = s.dropCount := rfl
@[simp] theorem fail_overrun (e : ErrorKind) (opc : Byte) : (fail e opc s).overrun = s.overrun := rfl
@[simp] theorem fail_busy (e : ErrorKind) (opc : Byte) : (fail e opc s).busy = s.busy := rfl
@[simp] theorem fail_pend (e : ErrorKind) (opc : Byte) : (fail e opc s).pend = s.pend := rfl

@[simp] theorem acknowledge_symq : (acknowledge s).symq = s.symq := rfl
@[simp] theorem acknowledge_bitq : (acknowledge s).bitq = s.bitq := rfl
@[simp] theorem acknowledge_byteq : (acknowledge s).byteq = s.byteq := rfl
@[simp] theorem acknowledge_leafq : (acknowledge s).leafq = s.leafq := rfl
@[simp] theorem acknowledge_tree : (acknowledge s).tree = s.tree := rfl
@[simp] theorem acknowledge_finalValid : (acknowledge s).finalValid = s.finalValid := rfl
@[simp] theorem acknowledge_result : (acknowledge s).result = s.result := rfl
@[simp] theorem acknowledge_err : (acknowledge s).err = false := rfl
@[simp] theorem acknowledge_errCode : (acknowledge s).errCode = 0 := rfl
@[simp] theorem acknowledge_errOpc : (acknowledge s).errOpc = 0 := rfl
@[simp] theorem acknowledge_dangling : (acknowledge s).dangling = s.dangling := rfl
@[simp] theorem acknowledge_dropCount : (acknowledge s).dropCount = s.dropCount := rfl
@[simp] theorem acknowledge_overrun : (acknowledge s).overrun = false := rfl
@[simp] theorem acknowledge_busy : (acknowledge s).busy = s.busy := rfl
@[simp] theorem acknowledge_pend : (acknowledge s).pend = s.pend := rfl

@[simp] theorem State.latch_symq (w : Word) : (s.latch w).symq = s.symq := rfl
@[simp] theorem State.latch_bitq (w : Word) : (s.latch w).bitq = s.bitq := rfl
@[simp] theorem State.latch_byteq (w : Word) : (s.latch w).byteq = s.byteq := rfl
@[simp] theorem State.latch_leafq (w : Word) : (s.latch w).leafq = s.leafq := rfl
@[simp] theorem State.latch_tree (w : Word) : (s.latch w).tree = s.tree := rfl
@[simp] theorem State.latch_finalValid (w : Word) : (s.latch w).finalValid = s.finalValid := rfl
@[simp] theorem State.latch_result (w : Word) : (s.latch w).result = s.result := rfl
@[simp] theorem State.latch_err (w : Word) : (s.latch w).err = s.err := rfl
@[simp] theorem State.latch_errCode (w : Word) : (s.latch w).errCode = s.errCode := rfl
@[simp] theorem State.latch_errOpc (w : Word) : (s.latch w).errOpc = s.errOpc := rfl
@[simp] theorem State.latch_dangling (w : Word) : (s.latch w).dangling = s.dangling := rfl
@[simp] theorem State.latch_dropCount (w : Word) : (s.latch w).dropCount = s.dropCount := rfl
@[simp] theorem State.latch_overrun (w : Word) : (s.latch w).overrun = s.overrun := rfl
@[simp] theorem State.latch_busy (w : Word) : (s.latch w).busy = true := rfl
@[simp] theorem State.latch_pend (w : Word) : (s.latch w).pend = w := rfl

@[simp] theorem State.release_symq : (s.release).symq = s.symq := rfl
@[simp] theorem State.release_bitq : (s.release).bitq = s.bitq := rfl
@[simp] theorem State.release_byteq : (s.release).byteq = s.byteq := rfl
@[simp] theorem State.release_leafq : (s.release).leafq = s.leafq := rfl
@[simp] theorem State.release_tree : (s.release).tree = s.tree := rfl
@[simp] theorem State.release_finalValid : (s.release).finalValid = s.finalValid := rfl
@[simp] theorem State.release_result : (s.release).result = s.result := rfl
@[simp] theorem State.release_err : (s.release).err = s.err := rfl
@[simp] theorem State.release_errCode : (s.release).errCode = s.errCode := rfl
@[simp] theorem State.release_errOpc : (s.release).errOpc = s.errOpc := rfl
@[simp] theorem State.release_dangling : (s.release).dangling = s.dangling := rfl
@[simp] theorem State.release_dropCount : (s.release).dropCount = s.dropCount := rfl
@[simp] theorem State.release_overrun : (s.release).overrun = s.overrun := rfl
@[simp] theorem State.release_busy : (s.release).busy = false := rfl
@[simp] theorem State.release_pend : (s.release).pend = s.pend := rfl

@[simp] theorem State.overrunSet_symq : (s.overrunSet).symq = s.symq := rfl
@[simp] theorem State.overrunSet_bitq : (s.overrunSet).bitq = s.bitq := rfl
@[simp] theorem State.overrunSet_byteq : (s.overrunSet).byteq = s.byteq := rfl
@[simp] theorem State.overrunSet_leafq : (s.overrunSet).leafq = s.leafq := rfl
@[simp] theorem State.overrunSet_tree : (s.overrunSet).tree = s.tree := rfl
@[simp] theorem State.overrunSet_finalValid : (s.overrunSet).finalValid = s.finalValid := rfl
@[simp] theorem State.overrunSet_result : (s.overrunSet).result = s.result := rfl
@[simp] theorem State.overrunSet_err : (s.overrunSet).err = s.err := rfl
@[simp] theorem State.overrunSet_errCode : (s.overrunSet).errCode = s.errCode := rfl
@[simp] theorem State.overrunSet_errOpc : (s.overrunSet).errOpc = s.errOpc := rfl
@[simp] theorem State.overrunSet_dangling : (s.overrunSet).dangling = s.dangling := rfl
@[simp] theorem State.overrunSet_dropCount : (s.overrunSet).dropCount = s.dropCount := rfl
@[simp] theorem State.overrunSet_overrun : (s.overrunSet).overrun = true := rfl
@[simp] theorem State.overrunSet_busy : (s.overrunSet).busy = s.busy := rfl
@[simp] theorem State.overrunSet_pend : (s.overrunSet).pend = s.pend := rfl

@[simp] theorem State.reset_symq : State.reset.symq = [] := rfl
@[simp] theorem State.reset_bitq : State.reset.bitq = [] := rfl
@[simp] theorem State.reset_byteq : State.reset.byteq = [] := rfl
@[simp] theorem State.reset_leafq : State.reset.leafq = [] := rfl
@[simp] theorem State.reset_tree : State.reset.tree = .empty := rfl
@[simp] theorem State.reset_finalValid : State.reset.finalValid = 8 := rfl
@[simp] theorem State.reset_result : State.reset.result = 0 := rfl
@[simp] theorem State.reset_err : State.reset.err = false := rfl
@[simp] theorem State.reset_errCode : State.reset.errCode = 0 := rfl
@[simp] theorem State.reset_errOpc : State.reset.errOpc = 0 := rfl
@[simp] theorem State.reset_dangling : State.reset.dangling = false := rfl
@[simp] theorem State.reset_dropCount : State.reset.dropCount = 0 := rfl
@[simp] theorem State.reset_overrun : State.reset.overrun = false := rfl
@[simp] theorem State.reset_busy : State.reset.busy = false := rfl
@[simp] theorem State.reset_pend : State.reset.pend = 0 := rfl


end Sys2Proof.Machine
end

