-- ==== Sys2Proof/Laws/Ops.lean ====
section
/-! SUPPORT. What each shared operation can do, said once: one lemma for its success, one for its failure. -/

namespace Sys2Proof.Machine

/-- R203: with ERR = 0 every command runs. -/
theorem gateOpen_of_no_error {opc : Byte} {s : State} (h : s.err = false) : gateOpen opc s = true := by
  simp [gateOpen, h]

/-- R203: with ERR = 1 exactly the exempt opcodes run. -/
theorem gateOpen_of_error {opc : Byte} {s : State} (h : s.err = true) : gateOpen opc s = exempt opc := by
  simp [gateOpen, h]

/-- R203: the exempt opcodes are 0, 1 and 2. -/
theorem exempt_iff (opc : Byte) : exempt opc = true ↔ opc.toNat ≤ 2 := by
  simp only [exempt, Bool.or_eq_true, beq_iff_eq, ← BitVec.toNat_inj]
  simp
  omega

/-- R100: every command answers a next state, one of three. -/
theorem runRule_eq_next {opc : Byte} {s t : State} {r : Except ErrorKind State} (h : runRule opc s r = .next t) :
    (gateOpen opc s = false ∧ t = s) ∨
    (gateOpen opc s = true ∧ ((r = .ok t) ∨ ∃ e, r = .error e ∧ t = fail e opc s)) := by
  unfold runRule at h
  injection h with h
  cases hg : gateOpen opc s
  · exact .inl ⟨rfl, by simpa [hg] using h.symm⟩
  · refine .inr ⟨rfl, ?_⟩
    rw [if_pos hg] at h
    cases r with
    | ok u => exact .inl (by rw [← h]; rfl)
    | error e => exact .inr ⟨e, rfl, h.symm⟩

/-- R100: a rule that commits, its gate open. -/
theorem runRule_ok {opc : Byte} {s u : State} (hg : gateOpen opc s = true) : runRule opc s (.ok u) = .next u := by
  simp [runRule, hg, settle]

/-- R100, R201: a rule that raises, its gate open. -/
theorem runRule_error {opc : Byte} {s : State} {e : ErrorKind} (hg : gateOpen opc s = true) :
    runRule opc s (.error e) = .next (fail e opc s) := by
  simp [runRule, hg, settle]

/-- R203: the ERR gate discards. -/
theorem runRule_gated {opc : Byte} {s : State} {r : Except ErrorKind State} (hg : gateOpen opc s = false) :
    runRule opc s r = .next s := by
  simp [runRule, hg]

/-- A `require` that passes, or that is passed. -/
theorem require_eq_ok {c : Bool} {e : ErrorKind} {rest : Except ErrorKind State} {u : State} :
    require c e rest = .ok u ↔ c = true ∧ rest = .ok u := by
  cases c <;> simp [require]

/-- A `require` raises its own kind, or what comes after it raises. -/
theorem require_eq_error {c : Bool} {e e' : ErrorKind} {rest : Except ErrorKind State} :
    require c e rest = .error e' ↔ (c = false ∧ e = e') ∨ (c = true ∧ rest = .error e') := by
  cases c <;> simp [require]

/-- R110: a push that commits. -/
theorem push_eq_ok {α : Type} {q : List α} {cap : Nat} {v : α} {install : List α → State} {u : State} :
    push q cap v install = .ok u ↔ q.length + 1 ≤ cap ∧ u = install (q ++ [v]) := by
  rw [push, require_eq_ok, decide_eq_true_eq, Except.ok.injEq, eq_comm (a := u)]

/-- R110: a push raises only `Overflow`. -/
theorem push_eq_error {α : Type} {q : List α} {cap : Nat} {v : α} {install : List α → State} {e : ErrorKind} :
    push q cap v install = .error e ↔ cap < q.length + 1 ∧ e = .overflow := by
  rw [push, require_eq_error, decide_eq_false_iff_not, Nat.not_le]
  simp [eq_comm (a := e)]

/-- R115: a pop that commits. -/
theorem pop_eq_ok {α : Type} {q : List α} {zext : α → Word} {install : List α → State} {u : State} :
    pop q zext install = .ok u ↔ ∃ x rest, q = x :: rest ∧ u = (install rest).setResult (zext x) := by
  cases q <;> simp [pop, eq_comm]

/-- R115: a pop raises only `UnexpectedEof`, on an empty queue. -/
theorem pop_eq_error {α : Type} {q : List α} {zext : α → Word} {install : List α → State} {e : ErrorKind} :
    pop q zext install = .error e ↔ q = [] ∧ e = .unexpectedEof := by
  cases q <;> simp [pop, eq_comm]

/-- R82: the operand of a byte push. -/
theorem byteOperand_eq_ok {v : Opd} {b : Byte} : byteOperand v = .ok b ↔ v.toNat ≤ 255 ∧ b = v.setWidth 8 := by
  unfold byteOperand
  split <;> simp_all [eq_comm]

theorem byteOperand_eq_error {v : Opd} {e : ErrorKind} :
    byteOperand v = .error e ↔ 255 < v.toNat ∧ e = .invalidOperand := by
  unfold byteOperand
  split
  · simp; omega
  · simp [eq_comm]; omega

/-- R82: the operand of PUSH_BIT. -/
theorem bitOperand_eq_ok {v : Opd} {b : Bit} : bitOperand v = .ok b ↔ v.toNat ≤ 1 ∧ b = decide (v.toNat = 1) := by
  unfold bitOperand
  split
  case isTrue h => constructor <;> intro hb <;> simp_all
  case isFalse h₀ =>
    split
    case isTrue h => constructor <;> intro hb <;> simp_all
    case isFalse h₁ => simp; omega

theorem bitOperand_eq_error {v : Opd} {e : ErrorKind} :
    bitOperand v = .error e ↔ 1 < v.toNat ∧ e = .invalidBitValue := by
  unfold bitOperand
  split
  · simp; omega
  · split
    · simp; omega
    · simp [eq_comm]; omega

/-- R82: the operand of SET_FINAL. -/
theorem finalOperand_eq_ok {v : Opd} {f : Nat} : finalOperand v = .ok f ↔ (1 ≤ v.toNat ∧ v.toNat ≤ 8) ∧ f = v.toNat := by
  unfold finalOperand
  split <;> simp_all [eq_comm]

theorem finalOperand_eq_error {v : Opd} {e : ErrorKind} :
    finalOperand v = .error e ↔ (v.toNat = 0 ∨ 8 < v.toNat) ∧ e = .invalidOperand := by
  unfold finalOperand
  split
  · simp; omega
  · simp [eq_comm]; omega

/-- A bind that commits. -/
theorem except_bind_eq_ok {α β : Type} {r : Except ErrorKind α} {k : α → Except ErrorKind β} {u : β} :
    r.bind k = .ok u ↔ ∃ a, r = .ok a ∧ k a = .ok u := by
  cases r <;> simp [Except.bind]

/-- A bind that raises. -/
theorem except_bind_eq_error {α β : Type} {r : Except ErrorKind α} {k : α → Except ErrorKind β} {e : ErrorKind} :
    r.bind k = .error e ↔ r = .error e ∨ ∃ a, r = .ok a ∧ k a = .error e := by
  cases r <;> simp [Except.bind]

/-- R241: what retiring leaves of a next state. -/
theorem retire_eq_next {o : Host.Outcome State Fault Refusal} {t : State} (h : retire o = .next t) :
    ∃ u, o = .next u ∧ t = u.release := by
  cases o with
  | next u => exact ⟨u, rfl, by injection h with h; exact h.symm⟩
  | fault f => cases h
  | refused r => cases h

end Sys2Proof.Machine
end

