-- ==== Sys2Proof/Laws/Exec.lean ====
section
/-! SUPPORT. What `exec` and `step` can do, said once. -/

namespace Sys2Proof.Machine

/-- R100: every meaning is its rule run through the one skeleton, on the instance `exec` is. -/
theorem exec_eq_execAt (i : Instr) (s : State) : exec i s = execAt blockParams i s := by
  cases i <;> rfl

/-- R100: and so is executing a word. -/
theorem execute_eq_executeAt (w : Word) (s : State) : execute w s = executeAt blockParams w s := by
  unfold execute executeAt
  cases decodeInstr w with
  | none => rfl
  | some i => exact exec_eq_execAt i s

/-- R241: `step` is the engine step of the instance `exec` is. -/
theorem step_eq_stepAt (s : State) : step s = stepAt blockParams s := by
  rw [step, stepAt, execute_eq_executeAt]

/-- `Runs` says no more than its first half. -/
theorem runs_iff {p : Params} {i : Instr} {s t : State} : Runs p i s t ↔ execAt p i s = .next t :=
  ⟨And.left, fun h => ⟨h, fun hp => by rw [exec_eq_execAt, ← hp, h]⟩⟩

/-- `Steps` says no more than its first half. -/
theorem steps_iff {p : Params} {s t : State} : Steps p s t ↔ stepAt p s = .next t :=
  ⟨And.left, fun h => ⟨h, fun hp => by rw [step_eq_stepAt, ← hp, h]⟩⟩

/-- R100: every meaning answers a next state. -/
theorem execAt_next (p : Params) (i : Instr) (s : State) : ∃ t, execAt p i s = .next t := ⟨_, rfl⟩

/-- R100: and so does every arm of `exec`. -/
theorem exec_next (i : Instr) (s : State) : ∃ t, exec i s = .next t := by
  rw [exec_eq_execAt]
  exact execAt_next _ i s

/-- R100: what a meaning leaves: the state as it was behind a closed gate, what its rule committed, or an error entry. -/
theorem execAt_cases {p : Params} {i : Instr} {s t : State} (h : execAt p i s = .next t) :
    (gateOpen i.opcode s = false ∧ t = s) ∨
    (gateOpen i.opcode s = true ∧ (ruleAt p i s = .ok t ∨ ∃ e, ruleAt p i s = .error e ∧ t = fail e i.opcode s)) := by
  exact runRule_eq_next h

/-- A meaning whose rule commits, with ERR = 0. -/
theorem execAt_of_rule_ok {p : Params} {i : Instr} {s u : State} (he : s.err = false) (h : ruleAt p i s = .ok u) : execAt p i s = .next u := by
  rw [execAt, h, runRule_ok (gateOpen_of_no_error he)]

/-- A meaning whose rule raises, with ERR = 0. -/
theorem execAt_of_rule_error {p : Params} {i : Instr} {s : State} {e : ErrorKind} (he : s.err = false) (h : ruleAt p i s = .error e) :
    execAt p i s = .next (fail e i.opcode s) := by
  rw [execAt, h, runRule_error (gateOpen_of_no_error he)]

/-- R241: what an engine step can do. -/
theorem stepAt_cases {p : Params} {s t : State} (h : stepAt p s = .next t) :
    s.busy = true ∧
    ((gateOpen (opcOf s.pend) s = false ∧ t = s.release) ∨
     (gateOpen (opcOf s.pend) s = true ∧ decodeInstr s.pend = none ∧ t = (fail .illegalCommand (opcOf s.pend) s).release) ∨
     (gateOpen (opcOf s.pend) s = true ∧ ∃ i, decodeInstr s.pend = some i ∧
       ((∃ u, ruleAt p i s = .ok u ∧ t = u.release) ∨ ∃ e, ruleAt p i s = .error e ∧ t = (fail e (opcOf s.pend) s).release))) := by
  unfold stepAt at h
  split at h
  case isFalse => cases h
  case isTrue hb =>
    refine ⟨hb, ?_⟩
    obtain ⟨u, hu, rfl⟩ := retire_eq_next h
    unfold executeAt State.pendingWord at hu
    cases hd : decodeInstr s.pend with
    | none =>
      rw [hd] at hu
      obtain ⟨hg, rfl⟩ | ⟨hg, hr | ⟨e, he, rfl⟩⟩ := runRule_eq_next hu
      · exact .inl ⟨hg, rfl⟩
      · cases hr
      · cases he
        exact .inr (.inl ⟨hg, rfl, rfl⟩)
    | some i =>
      rw [hd] at hu
      have ho := (decodeInstr_eq_some hd).1
      obtain ⟨hg, rfl⟩ | ⟨hg, hr | ⟨e, he, rfl⟩⟩ := execAt_cases hu
      · exact .inl ⟨ho ▸ hg, rfl⟩
      · exact .inr (.inr ⟨ho ▸ hg, i, rfl, .inl ⟨u, hr, rfl⟩⟩)
      · exact .inr (.inr ⟨ho ▸ hg, i, rfl, .inr ⟨e, he, by rw [ho]⟩⟩)

/-- R241: an idle block has no engine step. -/
theorem stepAt_idle {p : Params} {s : State} (h : s.busy = false) : stepAt p s = .fault .engineIdle := by
  simp [stepAt, h]

/-- What each command's rule has checked and written when it commits. -/
def Committed (p : Params) : Instr → State → State → Prop
  | .nop, s, u => u = s
  | .softReset, s, u => u = { State.reset with busy := s.busy }
  | .clearErr, s, u => u = acknowledge s
  | .pushSym v, s, u => v.toNat ≤ 255 ∧ s.symq.length + 1 ≤ p.symqCap ∧ u = s.setSymq (s.symq ++ [v.setWidth 8])
  | .pushBit v, s, u => v.toNat ≤ 1 ∧ s.bitq.length + 1 ≤ p.bitqCap ∧ u = s.setBitq (s.bitq ++ [decide (v.toNat = 1)])
  | .pushByte v, s, u => v.toNat ≤ 255 ∧ s.byteq.length + 1 ≤ p.byteqCap ∧ u = s.setByteq (s.byteq ++ [v.setWidth 8])
  | .pushLeaf v, s, u => v.toNat ≤ 255 ∧ s.leafq.length + 1 ≤ p.leafqCap ∧ u = s.setLeafq (s.leafq ++ [v.setWidth 8])
  | .popSym, s, u => ∃ x rest, s.symq = x :: rest ∧ u = (s.setSymq rest).setResult (zextByte x)
  | .popBit, s, u => ∃ x rest, s.bitq = x :: rest ∧ u = (s.setBitq rest).setResult (zextBit x)
  | .popByte, s, u => ∃ x rest, s.byteq = x :: rest ∧ u = (s.setByteq rest).setResult (zextByte x)
  | .popLeaf, s, u => ∃ x rest, s.leafq = x :: rest ∧ u = (s.setLeafq rest).setResult (zextByte x)
  | .treeLoad, s, u => ∃ t bits, parse s.bitq s.leafq = some (t, bits, []) ∧ t.wellFormed = true ∧
      u = ((s.setTree (.loaded t)).setBitq bits).setLeafq []
  | .treeStore, s, u => s.bitq.length + s.tree.flatten.1.length ≤ p.bitqCap ∧
      s.leafq.length + s.tree.flatten.2.length ≤ p.leafqCap ∧
      u = (s.setBitq (s.bitq ++ s.tree.flatten.1)).setLeafq (s.leafq ++ s.tree.flatten.2)
  | .treeClear, s, u => u = s.setTree .empty
  | .encode, s, u => ∃ out, s.tree.encodeSymbols s.symq = some out ∧ s.bitq.length + out.length ≤ p.bitqCap ∧
      u = (s.setBitq (s.bitq ++ out)).setSymq []
  | .decode, s, u => s.symq.length + (s.tree.decodeSymbols s.bitq).1.length ≤ p.symqCap ∧
      u = ((s.setSymq (s.symq ++ (s.tree.decodeSymbols s.bitq).1)).setBitq []).setDropped (s.tree.decodeSymbols s.bitq).2
  | .pack, s, u => s.byteq.length + (packBits s.bitq).1.length ≤ p.byteqCap ∧
      u = ((s.setByteq (s.byteq ++ (packBits s.bitq).1)).setBitq []).setFinalValid (packBits s.bitq).2
  | .unpack, s, u => ∃ r, unpackBits s.byteq s.finalValid = some r ∧ s.bitq.length + r.length ≤ p.bitqCap ∧
      u = (s.setBitq (s.bitq ++ r)).setByteq []
  | .setFinal v, s, u => (1 ≤ v.toNat ∧ v.toNat ≤ 8) ∧ u = s.setFinalValid v.toNat

/-- Inversion: a rule commits exactly with what `Committed` says. -/
theorem ruleAt_eq_ok {p : Params} {i : Instr} {s u : State} : ruleAt p i s = .ok u ↔ Committed p i s u := by
  cases i with
  | nop => simp [ruleAt, nopRule, Committed, eq_comm (a := u)]
  | softReset => simp [ruleAt, softResetRule, Committed, eq_comm (a := u)]
  | clearErr => simp [ruleAt, clearErrRule, Committed, eq_comm (a := u)]
  | pushSym v => simp [ruleAt, pushSymRule, Committed, except_bind_eq_ok, byteOperand_eq_ok, push_eq_ok, and_assoc]
  | pushBit v => simp [ruleAt, pushBitRule, Committed, except_bind_eq_ok, bitOperand_eq_ok, push_eq_ok, and_assoc]
  | pushByte v => simp [ruleAt, pushByteRule, Committed, except_bind_eq_ok, byteOperand_eq_ok, push_eq_ok, and_assoc]
  | pushLeaf v => simp [ruleAt, pushLeafRule, Committed, except_bind_eq_ok, byteOperand_eq_ok, push_eq_ok, and_assoc]
  | popSym => exact pop_eq_ok
  | popBit => exact pop_eq_ok
  | popByte => exact pop_eq_ok
  | popLeaf => exact pop_eq_ok
  | treeLoad =>
    simp only [ruleAt, treeLoadRule, Committed]
    cases hp : parse s.bitq s.leafq with
    | none => simp
    | some r =>
      obtain ⟨t, bits, lv⟩ := r
      simp only [require_eq_ok, List.isEmpty_iff, Except.ok.injEq, Option.some.injEq, Prod.mk.injEq, Tree.wellFormed, Bool.and_eq_true]
      constructor
      · rintro ⟨hn, rfl, hd, rfl⟩
        exact ⟨t, bits, ⟨rfl, rfl, rfl⟩, ⟨hn, hd⟩, rfl⟩
      · rintro ⟨t', bits', ⟨rfl, rfl, rfl⟩, ⟨hn, hd⟩, rfl⟩
        exact ⟨hn, rfl, hd, rfl⟩
  | treeStore => simp [ruleAt, treeStoreRule, Committed, require_eq_ok, eq_comm (a := u)]
  | treeClear => simp [ruleAt, treeClearRule, Committed, eq_comm (a := u)]
  | encode =>
    simp only [ruleAt, encodeRule, Committed]
    cases s.tree.encodeSymbols s.symq <;> simp [require_eq_ok, eq_comm (a := u)]
  | decode => simp [ruleAt, decodeRule, Committed, require_eq_ok, eq_comm (a := u)]
  | pack => simp [ruleAt, packRule, Committed, require_eq_ok, eq_comm (a := u)]
  | unpack =>
    simp only [ruleAt, unpackRule, Committed]
    cases unpackBits s.byteq s.finalValid <;> simp [require_eq_ok, eq_comm (a := u)]
  | setFinal v => simp [ruleAt, setFinalRule, Committed, except_bind_eq_ok, finalOperand_eq_ok, eq_comm (a := u)]

/-- R200: the kinds a rule can raise are the ones the block raises. -/
theorem ruleAt_eq_error {p : Params} {i : Instr} {s : State} {e : ErrorKind} (h : ruleAt p i s = .error e) :
    e ∈ [ErrorKind.invalidBitValue, .unknownSymbol, .malformedTree, .unexpectedEof, .invalidOperand, .overflow] := by
  cases i with
  | nop => cases h
  | softReset => cases h
  | clearErr => cases h
  | pushSym v =>
    obtain h | ⟨b, -, h⟩ := except_bind_eq_error.mp h
    · rw [(byteOperand_eq_error.mp h).2]; decide
    · rw [(push_eq_error.mp h).2]; decide
  | pushBit v =>
    obtain h | ⟨b, -, h⟩ := except_bind_eq_error.mp h
    · rw [(bitOperand_eq_error.mp h).2]; decide
    · rw [(push_eq_error.mp h).2]; decide
  | pushByte v =>
    obtain h | ⟨b, -, h⟩ := except_bind_eq_error.mp h
    · rw [(byteOperand_eq_error.mp h).2]; decide
    · rw [(push_eq_error.mp h).2]; decide
  | pushLeaf v =>
    obtain h | ⟨b, -, h⟩ := except_bind_eq_error.mp h
    · rw [(byteOperand_eq_error.mp h).2]; decide
    · rw [(push_eq_error.mp h).2]; decide
  | popSym => rw [(pop_eq_error.mp h).2]; decide
  | popBit => rw [(pop_eq_error.mp h).2]; decide
  | popByte => rw [(pop_eq_error.mp h).2]; decide
  | popLeaf => rw [(pop_eq_error.mp h).2]; decide
  | treeLoad =>
    simp only [ruleAt, treeLoadRule] at h
    split at h
    · cases h; decide
    · simp only [require_eq_error, reduceCtorEq, and_false, or_false] at h
      obtain ⟨-, rfl⟩ | ⟨-, ⟨-, rfl⟩ | ⟨-, -, rfl⟩⟩ := h <;> decide
  | treeStore =>
    simp only [ruleAt, treeStoreRule, require_eq_error, reduceCtorEq, and_false, or_false] at h
    obtain ⟨-, rfl⟩ | ⟨-, -, rfl⟩ := h <;> decide
  | treeClear => cases h
  | encode =>
    simp only [ruleAt, encodeRule] at h
    split at h
    · cases h; decide
    · simp only [require_eq_error, reduceCtorEq, and_false, or_false] at h
      obtain ⟨-, rfl⟩ := h; decide
  | decode =>
    simp only [ruleAt, decodeRule, require_eq_error, reduceCtorEq, and_false, or_false] at h
    obtain ⟨-, rfl⟩ := h; decide
  | pack =>
    simp only [ruleAt, packRule, require_eq_error, reduceCtorEq, and_false, or_false] at h
    obtain ⟨-, rfl⟩ := h; decide
  | unpack =>
    simp only [ruleAt, unpackRule] at h
    split at h
    · cases h; decide
    · simp only [require_eq_error, reduceCtorEq, and_false, or_false] at h
      obtain ⟨-, rfl⟩ := h; decide
  | setFinal v =>
    obtain h | ⟨b, -, h⟩ := except_bind_eq_error.mp h
    · rw [(finalOperand_eq_error.mp h).2]; decide
    · cases h

end Sys2Proof.Machine
end

