-- ==== Sys2Proof/Laws/Pack.lean ====
section
/-! SUPPORT. The pack and unpack functions, said once. -/

namespace Sys2Proof.Machine


/-- R170: a weight as a shifted bit. -/
theorem bitWeight_eq (bits : List Bit) (j k : Nat) : bitWeight bits j k = (bits.getD (8 * j + k) false).toNat <<< k := by
  unfold bitWeight
  rw [List.getD_eq_getElem?_getD]
  cases h : bits[8 * j + k]? with
  | none => simp
  | some b => cases b <;> simp

/-- R170: a byte from its eight bits, least significant first. -/
def byteOfWeights (b0 b1 b2 b3 b4 b5 b6 b7 : Bool) : Byte :=
  BitVec.ofNat 8 (b0.toNat <<< 0 + (b1.toNat <<< 1 + (b2.toNat <<< 2 + (b3.toNat <<< 3 +
      (b4.toNat <<< 4 + (b5.toNat <<< 5 + (b6.toNat <<< 6 + b7.toNat <<< 7)))))))

/-- R64: bit k of that byte is the k-th of the eight. -/
theorem byteOfWeights_getLsbD : ∀ (k : Fin 8) (b0 b1 b2 b3 b4 b5 b6 b7 : Bool),
    (byteOfWeights b0 b1 b2 b3 b4 b5 b6 b7).getLsbD k = [b0, b1, b2, b3, b4, b5, b6, b7].getD k false := by
  decide

/-- R170: `byte[j]` from the eight stream bits it holds. -/
theorem packByte_eq (bits : List Bit) (j : Nat) :
    packByte bits j = byteOfWeights (bits.getD (8 * j + 0) false) (bits.getD (8 * j + 1) false) (bits.getD (8 * j + 2) false)
      (bits.getD (8 * j + 3) false) (bits.getD (8 * j + 4) false) (bits.getD (8 * j + 5) false) (bits.getD (8 * j + 6) false)
      (bits.getD (8 * j + 7) false) := by
  have h : List.range 8 = [0, 1, 2, 3, 4, 5, 6, 7] := rfl
  simp only [packByte, byteOfWeights, h, List.map_cons, List.map_nil, List.sum_cons, List.sum_nil, bitWeight_eq, Nat.add_zero]

/-- R64, R170: bit k of `byte[j]` is stream bit 8*j + k, 0 past the end. -/
theorem packByte_getLsbD (bits : List Bit) (j k : Nat) (hk : k < 8) :
    (packByte bits j).getLsbD k = bits.getD (8 * j + k) false := by
  rw [packByte_eq, byteOfWeights_getLsbD ⟨k, hk⟩]
  interval_cases k <;> rfl

/-- R170: the number of packed bytes. -/
theorem packBits_length (bits : List Bit) : (packBits bits).1.length = (bits.length + 7) / 8 := by simp [packBits]

/-- R170: the packed bytes one by one. -/
theorem packBits_getD (bits : List Bit) (j : Nat) (hj : j < (bits.length + 7) / 8) :
    (packBits bits).1.getD j 0 = packByte bits j := by
  simp [packBits, List.getD_eq_getElem?_getD, hj]

/-- R64: reading stream bit i back. -/
theorem streamBit_packBits (bits : List Bit) (i : Nat) (hi : i < bits.length) :
    streamBit (packBits bits).1 i = bits.getD i false := by
  rw [streamBit, packBits_getD _ _ (by omega), packByte_getLsbD _ _ _ (Nat.mod_lt _ (by omega))]
  congr 1; omega

/-- R172 after R170. -/
theorem unpackBits_packBits (bits : List Bit) : unpackBits (packBits bits).1 (packBits bits).2 = some bits := by
  rw [unpackBits, packBits_length]
  by_cases h0 : bits.length = 0
  · have : bits = [] := List.length_eq_zero_iff.mp h0
    subst this; rfl
  · have hm : (bits.length + 7) / 8 ≠ 0 := by omega
    rw [if_neg hm]
    have hn : 8 * ((bits.length + 7) / 8 - 1) + (packBits bits).2 = bits.length := by
      simp [packBits, h0]; omega
    rw [hn]
    congr 1
    apply List.ext_getElem
    · simp
    · intro i h1 h2
      simp [streamBit_packBits _ _ h2, List.getD_eq_getElem?_getD, h2]

end Sys2Proof.Machine
end

