-- ==== Sys2Proof/Laws/PerInstr.lean ====
section
/-! SUPPORT. Statements about every command as syntax, one lemma per constructor. -/

namespace Sys2Proof.Laws.EncodeFields

/-- 30_encoding.md R80, R81: the word of a command has its opcode in bits 7:0 and its operand in bits 31:8, and decodes to it. -/
def Statement (i : Instr) : Prop :=
  opcOf (encode i) = i.opcode ∧ opdOf (encode i) = i.operand ∧ decodeInstr (encode i) = some i

/-- From the opcode map's answer for the two fields. -/
theorem of_instrOf (i : Instr) (h : instrOf i.opcode i.operand = some i) : Statement i :=
  ⟨opcOf_encodeWord _ _, opdOf_encodeWord _ _, by rw [decodeInstr, encode, opcOf_encodeWord, opdOf_encodeWord, h]⟩

theorem nop : Statement .nop := of_instrOf _ rfl
theorem softReset : Statement .softReset := of_instrOf _ rfl
theorem clearErr : Statement .clearErr := of_instrOf _ rfl
theorem pushSym (v : Opd) : Statement (.pushSym v) := of_instrOf _ rfl
theorem pushBit (v : Opd) : Statement (.pushBit v) := of_instrOf _ rfl
theorem pushByte (v : Opd) : Statement (.pushByte v) := of_instrOf _ rfl
theorem pushLeaf (v : Opd) : Statement (.pushLeaf v) := of_instrOf _ rfl
theorem popSym : Statement .popSym := of_instrOf _ rfl
theorem popBit : Statement .popBit := of_instrOf _ rfl
theorem popByte : Statement .popByte := of_instrOf _ rfl
theorem popLeaf : Statement .popLeaf := of_instrOf _ rfl
theorem treeLoad : Statement .treeLoad := of_instrOf _ rfl
theorem treeStore : Statement .treeStore := of_instrOf _ rfl
theorem treeClear : Statement .treeClear := of_instrOf _ rfl
theorem encode : Statement .encode := of_instrOf _ rfl
theorem decode : Statement .decode := of_instrOf _ rfl
theorem pack : Statement .pack := of_instrOf _ rfl
theorem unpack : Statement .unpack := of_instrOf _ rfl
theorem setFinal (v : Opd) : Statement (.setFinal v) := of_instrOf _ rfl

end Sys2Proof.Laws.EncodeFields
end

