-- ==== Sys2Proof/Tests/Slice0.lean ====
section
/-! SUPPORT. Tests of the model against spec/95_test_vectors.md (each test names its vector), and a witness for the hypotheses of each
statement. Expected values are the spec's. -/

namespace Sys2Proof.Tests

open Sys2Proof.Machine

/-! Helpers -/

/-- The next state of an outcome. -/
def answer : Host.Outcome State Fault Refusal → Option State
  | .next s => some s
  | _ => none

/-- What the engine step leaves after an accepted CMD write of the word. -/
def after (w : Word) (s : State) : Option State := answer (step (s.latch w))

/-- The same on the instance with parameters `p`. -/
def afterAt (p : Params) (w : Word) (s : State) : Option State := answer (stepAt p (s.latch w))

/-- STATUS and ERRINFO of what a word leaves. -/
def statusOf (t : Option State) : Option (Word × Word) := t.map fun t => (t.statusReg, t.errInfoReg)

/-- STATUS and ERRINFO after a word. -/
def statusAfter (w : Word) (s : State) : Option (Word × Word) := statusOf (after w s)

/-- A bit list from its digits, head first. -/
def bits (ds : List Nat) : List Bit := ds.map (· == 1)

/-- An instance with small queues. -/
def small : Params := { symqCap := 12, bitqCap := 600, byteqCap := 8, leafqCap := 256, base := 0x40 }

/-- The state after reset. -/
def fresh : State := State.reset

/-- The canonical example tree X of 95_test_vectors.md: shape 1011000, leaves "TRSE". -/
def treeX : Tree := .node (.leaf 0x54) (.node (.node (.leaf 0x52) (.leaf 0x53)) (.leaf 0x45))

/-- The state with X loaded. -/
def withX : State := { fresh with tree := .loaded treeX }

/-- Node(A, B). -/
def treeAB : Tree := .node (.leaf 0x41) (.leaf 0x42)

/-- "STREETTEST". -/
def streetTest : List Byte := [0x53, 0x54, 0x52, 0x45, 0x45, 0x54, 0x54, 0x45, 0x53, 0x54]

/-- MAGIC_BYTES of the tests. -/
def magic : Magic := { m0 := 0x4D, m1 := 0x30, m2 := 0x4D, m3 := 0x33 }

/-- The host's defaults for a text. -/
def fifoHost : HostParams := HostParams.textDefault magic

/-- The host with the newest tie first. -/
def newestHost : HostParams := { fifoHost with tieOrder := .newestFirst }

/-- An error recorded by PUSH_BIT 2 (V7). -/
def failedBit : State := { fresh with err := true, errCode := 0x01, errOpc := 0x11 }

/-! WellFormed: an ill-formed command for each check (30_encoding.md R82) -/

theorem test_illformed_pushSym : (Instr.pushSym 256).wellFormed = false ∧ (Instr.pushSym 255).wellFormed = true := by decide
theorem test_illformed_pushBit : (Instr.pushBit 2).wellFormed = false ∧ (Instr.pushBit 1).wellFormed = true := by decide
theorem test_illformed_pushByte : (Instr.pushByte 256).wellFormed = false ∧ (Instr.pushByte 255).wellFormed = true := by decide
theorem test_illformed_pushLeaf : (Instr.pushLeaf 256).wellFormed = false ∧ (Instr.pushLeaf 255).wellFormed = true := by decide
theorem test_illformed_setFinal_zero : (Instr.setFinal 0).wellFormed = false ∧ (Instr.setFinal 1).wellFormed = true := by decide
theorem test_illformed_setFinal_nine : (Instr.setFinal 9).wellFormed = false ∧ (Instr.setFinal 8).wellFormed = true := by decide

/-! Decoding: every command's word, written out bit by bit from 30_encoding.md R80 (OPD in bits 31:8, OPC in 7:0) and R83 -/

theorem test_decode_nop : decodeInstr 0b00000000000000000000000000000000 = some .nop := by decide
theorem test_decode_softReset : decodeInstr 0b00000000000000000000000000000001 = some .softReset := by decide
theorem test_decode_clearErr : decodeInstr 0b00000000000000000000000000000010 = some .clearErr := by decide
theorem test_decode_pushSym : decodeInstr 0b00000000000000000100000100010000 = some (.pushSym 0x41) := by decide
theorem test_decode_pushBit : decodeInstr 0b00000000000000000000000100010001 = some (.pushBit 1) := by decide
theorem test_decode_pushByte : decodeInstr 0b00000000000000001111111100010010 = some (.pushByte 0xFF) := by decide
theorem test_decode_pushLeaf : decodeInstr 0b00000000000000010000000000010011 = some (.pushLeaf 0x100) := by decide
theorem test_decode_popSym : decodeInstr 0b00000000000000000000000000011000 = some .popSym := by decide
theorem test_decode_popBit : decodeInstr 0b00000000000000000000000000011001 = some .popBit := by decide
theorem test_decode_popByte : decodeInstr 0b00000000000000000000000000011010 = some .popByte := by decide
theorem test_decode_popLeaf : decodeInstr 0b00000000000000000000000000011011 = some .popLeaf := by decide
theorem test_decode_treeLoad : decodeInstr 0b00000000000000000000000000100000 = some .treeLoad := by decide
theorem test_decode_treeStore : decodeInstr 0b00000000000000000000000000100001 = some .treeStore := by decide
theorem test_decode_treeClear : decodeInstr 0b00000000000000000000000000100010 = some .treeClear := by decide
theorem test_decode_encode : decodeInstr 0b00000000000000000000000000110000 = some .encode := by decide
theorem test_decode_decode : decodeInstr 0b00000000000000000000000000110001 = some .decode := by decide
theorem test_decode_pack : decodeInstr 0b00000000000000000000000001000000 = some .pack := by decide
theorem test_decode_unpack : decodeInstr 0b00000000000000000000000001000001 = some .unpack := by decide
theorem test_decode_setFinal : decodeInstr 0b10000000000000000000000101000010 = some (.setFinal 0x800001) := by decide

/-- V82 to V85, V3, V24, V80: words that spell no command. -/
theorem test_decode_illegal :
    [0x00000003, 0x000000FF, 0x00000014, 0x00000130, 0x00000100, 0x00000118, 0x00000140].all
      (fun w : Word => decodeInstr w == none) = true := by decide

/-- R85: one word of each class. -/
theorem test_decode_classes :
    decode 0x00000211 = .badOperand (.pushBit 2) ∧ decode 0x00000111 = .cmd (.pushBit 1) ∧ decode 0x00000111 ≠ .illegal 0x11 ∧
    decode 0x00000140 = .illegal 0x40 := by decide

/-- 20_memory.md R62: SET_FINAL 2 (0x00000242) as byte lanes, the lowest address first. -/
theorem test_decode_lanes : decodeBytes [0x42, 0x02, 0x00, 0x00] = some (.setFinal 2) := by decide

/-- The opcode table's numbering. -/
theorem test_decodeTableWord : decodeTableWord 32 0x00005310 = some (.pushSym 0x53) ∧ decodeTableWord 32 0x00000003 = none := by decide

/-- The very next step after `withFetchWord` runs the word, from reset (V11's values with 'S'). -/
theorem test_withFetchWord :
    (answer (step (State.reset.withFetchWord 32 0x00005310))).map (fun t => (t.symq, t.busy)) = some ([0x53], false) := by decide

/-! Control commands -/

/-- V10: NOP runs with ERR = 1 and changes nothing. -/
theorem test_nop : statusAfter 0x00000000 { fresh with err := true, errCode := 0x09, errOpc := 0x19 } = some (0x000001E2, 0x00001909) := by decide

/-- V8: SOFT_RESET from a loaded state with ERR = 1. -/
theorem test_softReset :
    after 0x00000001 { failedBit with tree := .loaded treeX, symq := [0x53], byteq := [0x8D] } = some fresh := by decide

/-- V6: CLEAR_ERR; and V9, OVERRUN. -/
theorem test_clearErr :
    statusAfter 0x00000002 { failedBit with overrun := true } = some (0x000001E0, 0x00000000) := by decide

/-- V4: CLEAR_ERR with an operand is IllegalCommand, with ERR = 1 too. -/
theorem test_clearErr_operand : statusAfter 0x00000102 failedBit = some (0x000001E2, 0x0000020A) := by decide

/-! Queue commands -/

/-- V11, V12. -/
theorem test_pushSym :
    (after 0x00000010 fresh).map (fun t => (t.symq, t.statusReg)) = some ([0x00], 0x000001C0) ∧
    statusAfter 0x00010010 fresh = some (0x000001E2, 0x0000100B) := by decide

/-- V5: the ERR gate discards PUSH_SYM. -/
theorem test_pushSym_gated : after 0x00004110 failedBit = some { failedBit with pend := 0x00004110 } := by decide

/-- V16, at the tail. -/
theorem test_pushBit :
    (after 0x00000111 { fresh with bitq := bits [0] }).map (fun t => (t.bitq, t.statusReg)) = some (bits [0, 1], 0x000001A0) := by decide

/-- V7, V17, V18. -/
theorem test_pushBit_bad :
    [0x00000211, 0x00003111, 0xFFFFFF11].all (fun w : Word => statusAfter w fresh == some (0x000001E2, 0x00001101)) = true := by decide

/-- V13, V14. -/
theorem test_pushByte :
    (after 0x0000FF12 fresh).map (fun t => (t.byteq, t.statusReg)) = some ([0xFF], 0x00000160) ∧
    statusAfter 0x00010012 fresh = some (0x000001E2, 0x0000120B) := by decide

/-- V26, V27, on an instance whose LEAFQ holds one symbol. -/
theorem test_pushLeaf_full :
    statusOf (afterAt { small with leafqCap := 1 } 0x00004113 { fresh with leafq := [0x41] }) = some (0x000000E2, 0x0000130C) ∧
    statusOf (afterAt { small with leafqCap := 1 } 0x00010013 { fresh with leafq := [0x41] }) = some (0x000000E2, 0x0000130B) := by decide

/-- P1: PUSH_LEAF 'R' at the tail. -/
theorem test_pushLeaf : (after 0x00005213 { fresh with leafq := [0x54] }).map (fun t => t.leafq) = some [0x54, 0x52] := by decide

/-- V25. -/
theorem test_popSym :
    (after 0x00000018 { fresh with symq := [0x53, 0x45, 0x54] }).map (fun t => (t.result, t.symq)) = some (0x00000053, [0x45, 0x54]) := by decide

/-- V19: RESULT keeps its value. -/
theorem test_popSym_empty :
    statusAfter 0x00000018 fresh = some (0x000001E2, 0x00001809) ∧
    (after 0x00000018 { fresh with result := 0x45 }).map (fun t => t.result) = some 0x45 := by decide

/-- V23. -/
theorem test_popBit :
    (after 0x00000019 { fresh with bitq := bits [1] }).map (fun t => (t.result, t.statusReg)) = some (0x00000001, 0x000001E0) := by decide

/-- V20, V21, V22. -/
theorem test_pop_empty :
    statusAfter 0x00000019 fresh = some (0x000001E2, 0x00001909) ∧ statusAfter 0x0000001A fresh = some (0x000001E2, 0x00001A09) ∧
    statusAfter 0x0000001B fresh = some (0x000001E2, 0x00001B09) := by decide

/-- P2: POP_BYTE. -/
theorem test_popByte :
    (after 0x0000001A { fresh with byteq := [0xCA, 0x73] }).map (fun t => (t.result, t.byteq)) = some (0x000000CA, [0x73]) := by decide

/-- P6: POP_LEAF. -/
theorem test_popLeaf :
    (after 0x0000001B { fresh with leafq := [0x54, 0x45] }).map (fun t => (t.result, t.leafq)) = some (0x00000054, [0x45]) := by decide

/-! Tree commands -/

/-- V36: X replaces Node(A, B); V34: bits after the shape stay. -/
theorem test_treeLoad :
    after 0x00000020 { fresh with bitq := bits [1, 0, 1, 1, 0, 0, 0], leafq := [0x54, 0x52, 0x53, 0x45], tree := .loaded treeAB } =
      some { withX with pend := 0x00000020 } ∧
    after 0x00000020 { fresh with bitq := bits [1, 0, 0, 1, 1], leafq := [0x41, 0x42] } =
      some { fresh with bitq := bits [1, 1], tree := .loaded treeAB, pend := 0x00000020 } := by decide

/-- V29 to V33, V35: a single leaf, a shape exhausted, leaves exhausted, a leftover leaf, a repeated leaf, nothing. -/
theorem test_treeLoad_malformed :
    [(bits [0], [0x41]), (bits [1, 0], [0x41, 0x42]), (bits [1, 0, 0], [0x41]), (bits [1, 0, 0], [0x41, 0x42, 0x43]),
     (bits [1, 0, 0], [0x41, 0x41]), (bits [], [])].all
      (fun p : List Bit × List Byte =>
        after 0x00000020 { fresh with bitq := p.1, leafq := p.2 } ==
          some { fresh with bitq := p.1, leafq := p.2, err := true, errCode := 0x04, errOpc := 0x20, pend := 0x00000020 }) = true := by decide

/-- V39's second TREE_STORE. -/
theorem test_treeStore :
    after 0x00000021 { withX with bitq := bits [1, 0, 1, 1, 0, 0, 0], leafq := [0x54, 0x52, 0x53, 0x45] } =
      some { withX with bitq := bits [1, 0, 1, 1, 0, 0, 0, 1, 0, 1, 1, 0, 0, 0],
                        leafq := [0x54, 0x52, 0x53, 0x45, 0x54, 0x52, 0x53, 0x45], pend := 0x00000021 } := by decide

/-- V42: BITQ full to 6 below a capacity. -/
theorem test_treeStore_overflow :
    statusOf (afterAt { small with bitqCap := 8 } 0x00000021 { withX with bitq := bits [1, 1] }) = some (0x000001A6, 0x0000210C) := by decide

/-- V40. -/
theorem test_treeClear : after 0x00000022 withX = some { fresh with pend := 0x00000022 } := by decide

/-! Encoder and decoder -/

/-- V48. -/
theorem test_encode :
    (after 0x00000030 { withX with symq := streetTest }).map (fun t => (t.bitq, t.symq)) =
      some (bits [1, 0, 1, 0, 1, 0, 0, 1, 1, 1, 1, 0, 0, 1, 1, 1, 0, 1, 0], []) := by decide

/-- V63: UnknownSymbol before Overflow; V51: no tree. -/
theorem test_encode_unknown :
    statusOf (afterAt { small with bitqCap := 1 } 0x00000030 { withX with symq := [0x53, 0x41], bitq := bits [1] }) =
      some (0x00000186, 0x00003003) ∧
    statusAfter 0x00000030 { fresh with symq := [0x53] } = some (0x000001C2, 0x00003003) := by decide

/-- V53: a dangling bit; the statuses are V53's. -/
theorem test_decode_dangling :
    (after 0x00000031 { withX with bitq := bits [1, 0, 1, 1] }).map (fun t => (t.symq, t.bitq, t.dropCount, t.statusReg)) =
      some ([0x53], [], 1, 0x000001CC) := by decide

/-- S14: with no tree every bit is dropped; V62: Overflow keeps BITQ and the drop status. -/
theorem test_decode_empty_and_overflow :
    (after 0x00000031 { fresh with bitq := bits [1, 0, 1] }).map (fun t => (t.symq, t.bitq, t.dropCount, t.statusReg)) =
      some ([], [], 3, 0x000001E8) ∧
    (afterAt { small with symqCap := 1 } 0x00000031 { withX with symq := [0x41], bitq := bits [0], dropCount := 1, dangling := true }).map
      (fun t => (t.errInfoReg, t.bitq, t.dropCount)) = some (0x0000310C, bits [0], 1) := by decide

/-! Bit packing -/

/-- V69. -/
theorem test_pack :
    (after 0x00000040
      { fresh with bitq := bits [1, 0, 1, 1, 0, 0, 0, 1, 0, 1, 0, 1, 0, 0, 1, 1, 1, 1, 0, 0, 1, 1, 1, 0, 1, 0] }).map
      (fun t => (t.byteq, t.bitq, t.finalReg)) = some ([0x8D, 0xCA, 0x73, 0x01], [], 2) := by decide

/-- V66, V67, V68. -/
theorem test_pack_order :
    packBits (bits [1, 0, 0, 0, 0, 0, 0, 0]) = ([0x01], 8) ∧ packBits (bits [0, 0, 0, 0, 0, 0, 0, 1]) = ([0x80], 8) ∧
    packBits (bits [1, 1, 1, 1, 1, 1, 1, 1, 1]) = ([0xFF, 0x01], 1) := by decide

/-- V71. -/
theorem test_unpack :
    (after 0x00000041 { fresh with byteq := [0x8D, 0xCA, 0x73, 0x01], finalValid := 2 }).map (fun t => (t.bitq, t.byteq, t.finalValid)) =
      some (bits [1, 0, 1, 1, 0, 0, 0, 1, 0, 1, 0, 1, 0, 0, 1, 1, 1, 1, 0, 0, 1, 1, 1, 0, 1, 0], [], 2) := by decide

/-- V73, V74, V81. -/
theorem test_unpack_corners :
    statusAfter 0x00000041 { fresh with finalValid := 3 } = some (0x000001E2, 0x00004109) ∧
    (after 0x00000041 { fresh with byteq := [0xFF], finalValid := 1 }).map (fun t => t.bitq) = some (bits [1]) ∧
    statusOf (afterAt { small with bitqCap := 4 } 0x00000041 { fresh with byteq := [0x01], finalValid := 3, bitq := bits [1, 1] }) =
      some (0x00000122, 0x0000410C) := by decide

/-- V78. -/
theorem test_setFinal : (after 0x00000842 { fresh with finalValid := 3 }).map (fun t => (t.finalReg, t.err)) = some (8, false) := by decide

/-- V76, V77, V79. -/
theorem test_setFinal_bad :
    [0x00000042, 0x00000942, 0x01000042].all (fun w : Word => statusAfter w fresh == some (0x000001E2, 0x0000420B)) = true := by decide

/-! Illegal words, errors, reset, the window -/

/-- V82, V24, V3. -/
theorem test_illegal :
    statusAfter 0x00000003 fresh = some (0x000001E2, 0x0000030A) ∧ statusAfter 0x00000118 fresh = some (0x000001E2, 0x0000180A) ∧
    statusAfter 0x00000100 fresh = some (0x000001E2, 0x0000000A) := by decide

/-- V86. -/
theorem test_illegal_gated : statusAfter 0x00000003 failedBit = some (0x000001E2, 0x00001101) := by decide

/-- V1. -/
theorem test_reset_registers :
    ([0x00, 0x04, 0x08, 0x0C, 0x10, 0x14, 0x18, 0x1C, 0x20, 0x24, 0x28, 0x2C, 0x30, 0x34, 0x38, 0x3C].map fun off => readReg off State.reset) =
      [0, 0x000001E0, 0, 0, 0x00000008, 0, 0, 0, 0, 0, 0, 0, 0, 0, 0, 0] := by decide

/-- V87: a CMD write while BUSY = 1 is discarded and sets OVERRUN. -/
theorem test_overrun :
    (answer (runEvents small [.write (wordAccess 0) 0x00004110, .write (wordAccess 0) 0x00004210, .engine] fresh)).map
      (fun t => (t.symq, t.statusReg)) = some ([0x41], 0x000001D0) := by decide

/-- A read while a command is pending, and after its step (70_reset_and_hazards.md R234). -/
theorem test_reads :
    readValues small [.write (wordAccess 0) 0x00004110, .read (wordAccess 0x14), .engine, .read (wordAccess 0x14)] fresh = [0, 1] := by decide

/-- 20_memory.md R61, at the window's edges; and through HUFF_BASE (10_state.md R39). -/
theorem test_accesses :
    hostRead (wordAccess 0x3C) fresh = .ok 0 ∧ hostRead (wordAccess 0x40) fresh = .error .accessOutsideSpec ∧
    hostRead { width := 16, off := 0x04 } fresh = .error .accessOutsideSpec ∧ hostRead (wordAccess 0x05) fresh = .error .accessOutsideSpec ∧
    busRead small 32 0x44 fresh = .ok 0x000001E0 ∧ busRead small 32 0x3C fresh = .error .accessOutsideSpec := by decide

/-- 70_reset_and_hazards.md R231: a hardware reset abandons the pending command. -/
theorem test_hardReset : runEvents small [.write (wordAccess 0) 0x00004110, .hardReset] withX = .next fresh := by rfl

/-! The host-side reference -/

/-- V88, V89. -/
theorem test_builder_ties :
    buildTree fifoHost streetTest = .ok (.node (.leaf 0x54) (.node (.leaf 0x45) (.node (.leaf 0x52) (.leaf 0x53)))) ∧
    buildTree newestHost streetTest = .ok treeX := by decide

/-- V96, V97, V99: HELLO, from either seed order; and its folding. -/
theorem test_builder_seeds :
    buildTree fifoHost [0x48, 0x45, 0x4C, 0x4C, 0x4F] =
      .ok (.node (.node (.leaf 0x45) (.leaf 0x48)) (.node (.leaf 0x4F) (.leaf 0x4C))) ∧
    buildTree { fifoHost with seedOrder := .firstSeen } [0x48, 0x45, 0x4C, 0x4C, 0x4F] =
      .ok (.node (.node (.leaf 0x48) (.leaf 0x45)) (.node (.leaf 0x4F) (.leaf 0x4C))) ∧
    foldText fifoHost [0x68, 0x65, 0x6C, 0x6C, 0x6F] = [0x48, 0x45, 0x4C, 0x4C, 0x4F] := by decide

/-- V95: ABRACADABRA, shape 101100100, leaves "ACDBR". -/
theorem test_builder_abracadabra :
    (buildTree fifoHost [0x41, 0x42, 0x52, 0x41, 0x43, 0x41, 0x44, 0x41, 0x42, 0x52, 0x41]).map Tree.flatten =
      .ok (bits [1, 0, 1, 1, 0, 0, 1, 0, 0], [0x41, 0x43, 0x44, 0x42, 0x52]) := by decide

/-- V98. -/
theorem test_builder_insufficient :
    buildTree fifoHost [] = .error .insufficientSymbols ∧ buildTree fifoHost [0x41, 0x41, 0x41, 0x41] = .error .insufficientSymbols := by decide

/-- S12, V101: the container of STREETTEST under X. -/
theorem test_serialize :
    serialize magic { count := 4, leaves := [0x54, 0x52, 0x53, 0x45], final := 2, payload := [0x8D, 0xCA, 0x73, 0x01] } =
      [0x4D, 0x30, 0x4D, 0x33, 0x03, 0x54, 0x52, 0x53, 0x45, 0x02, 0x8D, 0xCA, 0x73, 0x01] := by decide

/-- V105 to V107. -/
theorem test_parse_header :
    parseContainer magic [0x4D, 0x30, 0x4D] = .error .badFormat ∧ parseContainer magic [0x4D, 0x30, 0x4D, 0x34, 0x01] = .error .badFormat ∧
    parseContainer magic [0x4D, 0x30, 0x4D, 0x33] = .error .truncated := by decide

/-- V108 to V113. -/
theorem test_parse_body :
    [([0x00, 0x41, 0x08, 0x00], ErrorKind.invalidSymbolCount), ([0x03, 0x54, 0x52], .truncated), ([0x01, 0x41, 0x42], .truncated),
     ([0x01, 0x41, 0x42, 0x09, 0x11], .badFormat), ([0x01, 0x41, 0x42, 0x00, 0x11], .badFormat), ([0x01, 0x41, 0x42, 0x05], .truncated)].all
      (fun p : List Byte × ErrorKind => decide (parseContainer magic (magicBytes magic ++ p.1) = .error p.2)) = true := by decide

/-- 30_encoding.md R87's lines. -/
theorem test_assemble :
    assembleLine ['P','U','S','H','_','B','I','T',' ','1'] = some 0x00000111 ∧
    assembleLine ['P','U','S','H','_','B','I','T',' ','4','8'] = some 0x00003011 ∧
    assembleLine ['P','U','S','H','_','S','Y','M',' ','\'','S','\'',' ',';',' ','x'] = some 0x00005310 ∧
    assembleLine ['N','O','P',' ','1'] = none ∧
    assembleLine ['P','U','S','H','_','S','Y','M',' ','0','x','1','0','0','0','0','0','0'] = none := by decide

/-- 30_encoding.md R88, P1: LOAD_TREE 1011000, "TRSE". -/
theorem test_loadTree :
    (loadTree (bits [1, 0, 1, 1, 0, 0, 0]) [0x54, 0x52, 0x53, 0x45]).map encode =
      [0x00000111, 0x00000011, 0x00000111, 0x00000111, 0x00000011, 0x00000011, 0x00000011,
       0x00005413, 0x00005213, 0x00005313, 0x00004513, 0x00000020] := by decide

/-! Witnesses: a concrete state and operands for the hypotheses of each statement, clause by clause -/

/-- An outcome whose answer is a state is that next state. -/
theorem of_answer {o : Host.Outcome State Fault Refusal} {t : State} (h : answer o = some t) : o = .next t := by
  cases o <;> simp_all [answer]

/-- An answer of the instance with parameters `p` is what `Runs` says. -/
theorem runs_of_answer {p : Params} {i : Instr} {s t : State} (h : answer (execAt p i s) = some t) : Runs p i s t :=
  runs_iff.mpr (of_answer h)

/-- An engine step's answer is what `Steps` says. -/
theorem steps_of_answer {p : Params} {s t : State} (h : answer (stepAt p s) = some t) : Steps p s t :=
  steps_iff.mpr (of_answer h)

/-- One element in each of SYMQ, BITQ, BYTEQ and LEAFQ. -/
def oneEach : State := { fresh with symq := [0x41], bitq := bits [1], byteq := [0x42], leafq := [0x43] }

/-- An instance whose capacities are all `c`: with `oneEach`, full at 1 and with room for exactly one more element at 2. -/
def capAll (c : Nat) : Params := { symqCap := c, bitqCap := c, byteqCap := c, leafqCap := c, base := 0 }

/-- The state with a command pending. -/
def pending (w : Word) (s : State) : State := s.latch w

theorem witness_IllegalWordsFail :
    decodeInstr 0x00000003 = none ∧ decodeInstr 0x00000100 = none ∧ decodeInstr 0x000000FF = none ∧
    ((pending 0x00000003 fresh).busy = true ∧ (pending 0x00000003 fresh).pend = 0x00000003 ∧ (pending 0x00000003 fresh).err = false) ∧
    ((pending 0x00000102 failedBit).busy = true ∧ (opcOf 0x00000102).toNat ≤ 2 ∧ decodeInstr 0x00000102 = none) ∧
    ((pending 0x00000003 failedBit).busy = true ∧ (pending 0x00000003 failedBit).err = true ∧ 2 < (opcOf 0x00000003).toNat) := by decide

theorem witness_StepRunsTheDecodedCommand :
    (pending 0x00000111 fresh).busy = true ∧ decodeInstr (pending 0x00000111 fresh).pend = some (.pushBit 1) ∧
    Runs small (.pushBit 1) (pending 0x00000111 fresh) { pending 0x00000111 fresh with bitq := bits [1] } ∧ fresh.busy = false :=
  ⟨by decide, by decide, runs_of_answer (by decide), by decide⟩

theorem witness_BusyStepAlwaysCompletes : (pending 0x00000003 failedBit).busy = true := by decide

theorem witness_NopChangesNothing : failedBit.err = true ∧ fresh.err = false := by decide

/-- `TakesNoOperand`'s hypotheses: an exempt opcode with ERR = 1, and another with ERR = 0, at both ends of the operand's range. -/
theorem witness_TakesNoOperand :
    (let s := pending 0x00000102 failedBit
     s.busy = true ∧ s.pend = encodeWord 0x02 1 ∧ (0x02 : Byte).toNat ≤ 2 ∧ (1 : Opd) ≠ 0) ∧
    (let s := pending 0xFFFFFF41 fresh
     s.busy = true ∧ s.pend = encodeWord 0x41 0xFFFFFF ∧ s.err = false ∧ (0xFFFFFF : Opd) ≠ 0) := by decide

theorem witness_SoftResetRestoresTheResetState :
    (pending 0x00000001 failedBit).busy = true ∧ (pending 0x00000001 failedBit).pend = 0x00000001 := by decide

theorem witness_ClearErrClearsTheErrorState : failedBit.err = true ∧ { failedBit with overrun := true }.overrun = true := by decide

theorem witness_BytePushesAppendOrFail :
    oneEach.err = false ∧ (255 : Opd).toNat ≤ 255 ∧ (0 : Opd).toNat ≤ 255 ∧
    oneEach.symq.length + 1 ≤ (capAll 2).symqCap ∧ oneEach.byteq.length + 1 ≤ (capAll 2).byteqCap ∧
    oneEach.leafq.length + 1 ≤ (capAll 2).leafqCap ∧ oneEach.err = false ∧ (capAll 1).symqCap < oneEach.symq.length + 1 ∧
    (capAll 1).byteqCap < oneEach.byteq.length + 1 ∧ (capAll 1).leafqCap < oneEach.leafq.length + 1 ∧
    255 < (256 : Opd).toNat ∧ 255 < (0xFFFFFF : Opd).toNat := by decide

theorem witness_PushBitAppendsOrFails :
    oneEach.err = false ∧ (0 : Opd).toNat ≤ 1 ∧ (1 : Opd).toNat ≤ 1 ∧ oneEach.bitq.length + 1 ≤ (capAll 2).bitqCap ∧
    1 < (2 : Opd).toNat ∧ 1 < (48 : Opd).toNat ∧ oneEach.err = false ∧ (capAll 1).bitqCap < oneEach.bitq.length + 1 := by decide

theorem witness_PopsMoveTheHeadToResult :
    oneEach.err = false ∧ oneEach.symq = 0x41 :: [] ∧ oneEach.bitq = true :: [] ∧ oneEach.byteq = 0x42 :: [] ∧ oneEach.leafq = 0x43 :: [] ∧
    { fresh with bitq := bits [0, 1] }.bitq = false :: [true] ∧
    fresh.err = false ∧ fresh.symq = [] ∧ fresh.bitq = [] ∧ fresh.byteq = [] ∧ fresh.leafq = [] := by decide

theorem witness_ParseFollowsItsEquations :
    parse [] [0x41] = none ∧ parse (bits [0]) [0x41, 0x42] = some (.leaf 0x41, [], [0x42]) ∧ parse [] [0x42] = none ∧
    parse (bits [0, 0]) [0x41, 0x42] = some (.leaf 0x41, bits [0], [0x42]) ∧ parse (bits [0]) [0x42] = some (.leaf 0x42, [], []) ∧
    parse (bits [1, 0, 0, 1]) [0x41, 0x42] = some (treeAB, bits [1], []) ∧ (bits [1, 0, 0, 1]).length ≤ 4 :=
  ⟨by decide, by decide, by decide, by decide, by decide, by decide, by decide⟩

/-- The second clause is met by an empty BITQ and by the repeated leaf of V33; the others by V30, V29, V32 and V33. -/
theorem witness_TreeLoadInvertsFlattenOrFails :
    (fresh.err = false ∧ treeX.wellFormed = true ∧
      { fresh with bitq := bits [1, 0, 1, 1, 0, 0, 0, 1], leafq := [0x54, 0x52, 0x53, 0x45] }.bitq = treeX.shape ++ [true] ∧
      [0x54, 0x52, 0x53, 0x45] = treeX.leaves) ∧
    (∀ (t : Tree) (rest : List Bit), t.wellFormed = true → fresh.bitq = t.shape ++ rest → fresh.leafq ≠ t.leaves) ∧
    (∀ (t : Tree) (rest : List Bit), t.wellFormed = true → bits [1, 0, 0] = t.shape ++ rest → [0x41, 0x41] ≠ t.leaves) ∧
    (parse (bits [1, 0]) [0x41, 0x42] = none ∧ parse (bits [0]) [0x41] = some (.leaf 0x41, [], []) ∧
      parse (bits [1, 0, 0]) [0x41, 0x42, 0x43] = some (treeAB, [], [0x43]) ∧
      parse (bits [1, 0, 0]) [0x41, 0x41] = some (.node (.leaf 0x41) (.leaf 0x41), [], []) ∧
      ¬ (Tree.leaves (.node (.leaf 0x41) (.leaf 0x41))).Nodup) := by
  refine ⟨by decide, fun t rest _ h => ?_, fun t rest hw _ hl => ?_, by decide⟩
  · cases t <;> simp [Tree.shape, fresh] at h
  · rw [Tree.wellFormed, ← hl] at hw
    simp [distinct] at hw

theorem witness_TreeStoreAppendsTheFlattenedTree :
    (fresh.err = false ∧ fresh.tree = .empty ∧ fresh.CapacityInv small) ∧
    (withX.err = false ∧ withX.tree = .loaded treeX ∧
      withX.bitq.length + treeX.shape.length ≤ (capAll 7).bitqCap ∧
      withX.leafq.length + treeX.leaves.length ≤ (capAll 7).leafqCap) ∧
    (withX.tree = .loaded treeX ∧ (capAll 6).bitqCap < withX.bitq.length + treeX.shape.length) ∧
    (withX.tree = .loaded treeX ∧ (capAll 3).leafqCap < withX.leafq.length + treeX.leaves.length) := by decide

theorem witness_TreeClearReleasesTheTree : withX.err = false ∧ fresh.err = false := by decide

/-- The smallest well-formed tree and X. It serves ShapeLengthFollowsLeafCount and WellFormedTreesAreBounded. -/
theorem witness_WellFormedTrees : treeAB.wellFormed = true ∧ treeX.wellFormed = true := by decide

theorem witness_StoreThenLoadRestoresTheTree :
    treeX.wellFormed = true ∧ withX.Inv small ∧ withX.err = false ∧ withX.tree = .loaded treeX ∧ withX.bitq = [] ∧ withX.leafq = [] := by decide

theorem witness_CodesArePrefixFree :
    treeX.wellFormed = true ∧ treeX.code 0x52 = some (bits [1, 0, 0]) ∧ 0x52 ∈ treeX.leaves ∧ bits [1, 0, 0] <+: bits [1, 0, 0] ∧
    0x41 ∈ Tree.leaves (.leaf 0x41) ∧ 0x42 ∈ Tree.leaves (.leaf 0x42) ∧ treeAB.wellFormed = true := by decide

theorem witness_EncodeAppendsTheCodes :
    (fresh.err = false ∧ fresh.symq = [] ∧ fresh.bitq.length ≤ small.bitqCap) ∧
    (let s := { withX with symq := [0x53, 0x54] }
     s.err = false ∧ s.tree = .loaded treeX ∧ (∀ x ∈ s.symq, x ∈ treeX.leaves) ∧
      bits [1, 0, 1, 0] = (s.symq.flatMap fun x => (treeX.code x).getD []) ∧
      s.bitq.length + (bits [1, 0, 1, 0]).length ≤ (capAll 4).bitqCap ∧ bits [1, 0, 1, 0] ≠ []) ∧
    (let s := { withX with symq := [0x53, 0x54] }
     s.err = false ∧ s.tree = .loaded treeX ∧ (∀ x ∈ s.symq, x ∈ treeX.leaves) ∧
      bits [1, 0, 1, 0] = (s.symq.flatMap fun x => (treeX.code x).getD []) ∧
      (capAll 3).bitqCap < s.bitq.length + (bits [1, 0, 1, 0]).length) ∧
    (let s := { withX with symq := [0x53, 0x41] }
     s.err = false ∧ s.tree = .loaded treeX ∧ ∃ x ∈ s.symq, x ∉ treeX.leaves) ∧
    (let s := { fresh with symq := [0x53] }
     s.err = false ∧ s.tree = .empty ∧ s.symq ≠ []) := by decide

theorem witness_DecodeDrainsTheBits :
    (let s := { fresh with bitq := bits [1, 0, 1] }
     s.err = false ∧ s.tree = .empty ∧ 3 = s.bitq.length ∧ s.symq.length + ([] : List Byte).length ≤ small.symqCap) ∧
    (let s := { withX with bitq := bits [1, 0, 1, 1], symq := [0x41, 0x41, 0x41] }
     s.err = false ∧ s.tree = .loaded treeX ∧ decodeBits treeX s.bitq = ([0x53], 1) ∧
      s.symq.length + ([0x53] : List Byte).length ≤ (capAll 4).symqCap ∧ ([0x53] : List Byte) ≠ []) ∧
    (let s := { withX with bitq := bits [1, 0, 1, 1], symq := [0x41, 0x41, 0x41, 0x41] }
     s.err = false ∧ s.tree = .loaded treeX ∧ decodeBits treeX s.bitq = ([0x53], 1) ∧
      (capAll 4).symqCap < s.symq.length + ([0x53] : List Byte).length) := by decide

theorem witness_DecodingIsCharacterised :
    treeX.wellFormed = true ∧ decodeBits treeX (bits [1, 0, 1, 1]) = ([0x53], 1) ∧ encodeBits treeX [0x53] = some (bits [1, 0, 1]) ∧
    treeX.code 0x45 = some (bits [1, 1]) ∧ bits [1] <+: bits [1, 1] ∧ bits [1] ≠ bits [1, 1] := by decide

theorem witness_DroppedBitsAreBounded :
    treeX.wellFormed = true ∧ ({ withX with bitq := bits [1, 0] } : State).Inv small ∧ withX.err = false ∧
    Runs small .decode { withX with bitq := bits [1, 0] } { withX with dropCount := 2, dangling := true } :=
  ⟨by decide, by decide, by decide, runs_of_answer (by decide)⟩

theorem witness_EncodeThenDecodeRestoresTheSymbols :
    (∀ x ∈ [0x53, 0x54], x ∈ treeX.leaves) ∧ { withX with symq := [0x53, 0x54] }.Inv small ∧ withX.err = false ∧ withX.bitq = [] ∧
    Runs small .encode { withX with symq := [0x53, 0x54] } { withX with bitq := bits [1, 0, 1, 0] } :=
  ⟨by decide, by decide, by decide, by decide, runs_of_answer (by decide)⟩

theorem witness_PackPlacesBitsLeastSignificantFirst :
    8 < (bits [1, 1, 1, 1, 1, 1, 1, 1, 1]).length ∧ (packBits (bits [1, 1, 1, 1, 1, 1, 1, 1, 1])).2 ≤ 1 := by decide

theorem witness_PackDrainsTheBits :
    (let s := { withX with bitq := bits [1, 1, 1, 1, 1, 1, 1, 1, 1], byteq := [1, 2, 3, 4, 5, 6, 7] }
     s.err = false ∧ s.byteq.length + (s.bitq.length + 7) / 8 ≤ (capAll 9).byteqCap) ∧
    (let s := { withX with bitq := bits [1, 1, 1, 1, 1, 1, 1, 1, 1], byteq := [1, 2, 3, 4, 5, 6, 7, 8] }
     s.err = false ∧ (capAll 9).byteqCap < s.byteq.length + (s.bitq.length + 7) / 8) ∧
    (fresh.err = false ∧ fresh.bitq.length = 0) := by decide

theorem witness_UnpackDrainsTheBytes :
    (fresh.err = false ∧ fresh.byteq = [] ∧ fresh.finalValid = 8 ∧ fresh.bitq.length ≤ small.bitqCap) ∧
    (let s := { fresh with finalValid := 3 }
     s.err = false ∧ s.byteq = [] ∧ s.finalValid ≠ 8) ∧
    (let s := { withX with byteq := [0x8D, 0x01], finalValid := 2 }
     s.err = false ∧ s.byteq ≠ [] ∧ s.bitq.length + (8 * (s.byteq.length - 1) + s.finalValid) ≤ (capAll 10).bitqCap) ∧
    (let s := { withX with byteq := [0x8D, 0x01], finalValid := 2 }
     s.err = false ∧ s.byteq ≠ [] ∧ (capAll 9).bitqCap < s.bitq.length + (8 * (s.byteq.length - 1) + s.finalValid)) := by decide

theorem witness_SetFinalSetsTheFinalCount :
    fresh.err = false ∧ (1 ≤ (1 : Opd).toNat ∧ (1 : Opd).toNat ≤ 8) ∧ (1 ≤ (8 : Opd).toNat ∧ (8 : Opd).toNat ≤ 8) ∧
    (0 : Opd).toNat = 0 ∧ 8 < (9 : Opd).toNat := by decide

theorem witness_PackThenUnpackRestoresTheBits :
    let s := { fresh with bitq := bits [1, 0, 1] }
    let u := { fresh with byteq := [0x05], finalValid := 3 }
    let w := { withX with byteq := [0x05], finalValid := 3 }
    s.err = false ∧ s.byteq = [] ∧ Runs (capAll 3) .pack s u ∧ u.err = false ∧
    w.byteq = u.byteq ∧ w.finalValid = u.finalValid ∧ w.bitq = [] ∧ w.err = false ∧ s.bitq.length ≤ (capAll 3).bitqCap :=
  ⟨by decide, by decide, runs_of_answer (by decide), by decide⟩

theorem witness_PackedBitCountIsRecovered :
    { fresh with bitq := bits [1, 0, 1] }.err = false ∧
    Runs small .pack { fresh with bitq := bits [1, 0, 1] } { fresh with byteq := [0x05], finalValid := 3 } ∧
    1 ≤ { fresh with bitq := bits [1, 0, 1] }.bitq.length :=
  ⟨by decide, runs_of_answer (by decide), by decide⟩

theorem witness_FailureChangesOnlyTheErrorFields :
    (fresh.err = false ∧ Steps small (pending 0x00000211 fresh) { failedBit with pend := 0x00000211 } ∧ failedBit.err = true) ∧
    (Steps small (pending 0x00000102 failedBit) { failedBit with errCode := 0x0A, errOpc := 0x02, pend := 0x00000102 } ∧
      (opcOf 0x00000102).toNat ≤ 2 ∧ opdOf 0x00000102 ≠ 0) :=
  ⟨⟨by decide, steps_of_answer (by decide), by decide⟩, steps_of_answer (by decide), by decide⟩

theorem witness_ErrGateDiscardsEveryOtherCommand :
    (pending 0x00004110 failedBit).err = true ∧ (pending 0x00004110 failedBit).busy = true ∧ 2 < (opcOf 0x00004110).toNat ∧
    (pending 0x00000003 failedBit).busy = true ∧ 2 < (opcOf 0x00000003).toNat ∧
    (Instr.pushSym 0x41 ≠ .nop ∧ Instr.pushSym 0x41 ≠ .softReset ∧ Instr.pushSym 0x41 ≠ .clearErr) := by decide

theorem witness_NestedFailureOverwritesTheCode :
    ((pending 0x00000102 failedBit).busy = true ∧ (pending 0x00000102 failedBit).err = true ∧ (opcOf 0x00000102).toNat ≤ 2 ∧
      opdOf 0x00000102 ≠ 0) ∧
    ((opcOf 0x00000000).toNat ≤ 2 ∧ opdOf 0x00000000 = 0 ∧ opcOf 0x00000000 = 0x00) ∧
    ((opcOf 0x00000002).toNat ≤ 2 ∧ opdOf 0x00000002 = 0 ∧ opcOf 0x00000002 ≠ 0x00) := by decide

theorem witness_ErrorsStayUntilAcknowledged :
    Steps small (pending 0x00000002 { failedBit with overrun := true }) { fresh with pend := 0x00000002 } ∧ failedBit.err = true ∧
    fresh.err = false ∧ fresh.overrun = false ∧ Steps small (pending 0x00000001 failedBit) fresh ∧
    Steps small (pending 0x00000000 fresh) fresh :=
  ⟨steps_of_answer (by decide), by decide, by decide, by decide, steps_of_answer (by decide), steps_of_answer (by decide)⟩

/-- TREE_STORE changes BITQ and LEAFQ; DECODE changes SYMQ; PACK changes BYTEQ. -/
theorem witness_QueuesChangeOnlyThroughTheirCommands :
    Steps small (pending 0x00000021 withX) { withX with bitq := bits [1, 0, 1, 1, 0, 0, 0], leafq := [0x54, 0x52, 0x53, 0x45], pend := 0x00000021 } ∧
    Steps small (pending 0x00000031 { withX with bitq := bits [1, 1] }) { withX with symq := [0x45], pend := 0x00000031 } ∧
    Steps small (pending 0x00000040 { fresh with bitq := bits [1] }) { fresh with byteq := [0x01], finalValid := 1, pend := 0x00000040 } :=
  ⟨steps_of_answer (by decide), steps_of_answer (by decide), steps_of_answer (by decide)⟩

/-- TREE_CLEAR changes TREE; PACK FINAL_VALID (above); POP_SYM RESULT; DECODE the decode status. -/
theorem witness_ScalarsChangeOnlyThroughTheirCommands :
    Steps small (pending 0x00000022 withX) { fresh with pend := 0x00000022 } ∧
    Steps small (pending 0x00000018 { fresh with symq := [0x53] }) { fresh with result := 0x53, pend := 0x00000018 } ∧
    Steps small (pending 0x00000031 { fresh with bitq := bits [1] }) { fresh with dropCount := 1, dangling := true, pend := 0x00000031 } :=
  ⟨steps_of_answer (by decide), steps_of_answer (by decide), steps_of_answer (by decide)⟩

theorem witness_RegistersAfterReset : (0x00 : Nat) ≠ 0x04 ∧ (0x00 : Nat) ≠ 0x10 ∧ (0x28 : Nat) ≠ 0x04 ∧ (0x28 : Nat) ≠ 0x10 := by decide

theorem witness_ResetMeetsTheInvariant : small.Legal ∧ blockParams.Legal := by decide

theorem witness_EveryStepKeepsTheInvariant :
    (pending 0x00000211 fresh).Inv small ∧ stepAt small (pending 0x00000211 fresh) = .next { failedBit with pend := 0x00000211 } ∧
    (pending 0x00000022 withX).Inv blockParams ∧ step (pending 0x00000022 withX) = .next { fresh with pend := 0x00000022 } :=
  ⟨by decide, of_answer (by decide), by decide, of_answer (by decide)⟩

theorem witness_EveryInterleavingKeepsTheInvariant :
    withX.Inv small ∧ runEvents small [.write (wordAccess 0) 0x00004110, .write (wordAccess 0) 0x00000003, .read (wordAccess 4), .hardReset] withX =
      .next fresh :=
  ⟨by decide, of_answer (by decide)⟩

theorem witness_StatusBitsAreViews : (9 : Nat) ≤ 9 ∧ (9 : Nat) ≤ 31 := by decide

theorem witness_RegistersAreViews : fresh.Inv small ∧ fresh.tree = .empty ∧ withX.Inv small ∧ withX.tree = .loaded treeX := by decide

theorem witness_HostWritesLatchOrOverrun :
    fresh.busy = false ∧ (pending 0x00000111 fresh).busy = true ∧ (0x3C : Nat) % 4 = 0 ∧ (0x3C : Nat) < 0x40 ∧ (0x3C : Nat) ≠ 0x00 := by decide

theorem witness_AccessesOutsideTheSpecAreRefused :
    ({ width := 8, off := 0 } : Access).width ≠ 32 ∧ (wordAccess 0x02).off % 4 ≠ 0 ∧ 0x40 ≤ (wordAccess 0x40).off ∧
    ((wordAccess 0x3C).width = 32 ∧ (wordAccess 0x3C).off % 4 = 0 ∧ (wordAccess 0x3C).off < 0x40) := by decide

/-- No host access, reads and ignored writes alone, and a discarded CMD write between two reads. -/
theorem witness_ReadsWhileBusySeeTheStateBefore :
    let u := pending 0x00004110 fresh
    fresh.busy = false ∧ hostWrite (wordAccess 0x00) 0x00004110 fresh = .ok u ∧ runEvents small [] u = .next u ∧
    (let es := [Event.read (wordAccess 0x14), .write (wordAccess 0x04) 0xFFFFFFFF]
     (∀ e ∈ es, e ≠ .engine ∧ e ≠ .hardReset) ∧ runEvents small es u = .next u ∧ u.overrun = false) ∧
    (let es := [Event.read (wordAccess 0x04), .write (wordAccess 0x00) 0x00004210, .read (wordAccess 0x3C)]
     (∀ e ∈ es, e ≠ .engine ∧ e ≠ .hardReset) ∧ runEvents small es u = .next { u with overrun := true } ∧
      Event.write (wordAccess 0x00) 0x00004210 ∈ es) ∧
    (0x14 : Nat) ≠ 0x04 :=
  ⟨by decide, by decide, by rfl, ⟨by decide, by rfl, by decide⟩, ⟨by decide, by rfl, by decide⟩, by decide⟩

theorem witness_AnyInterleavingIsSequential :
    fresh.busy = false ∧
    Event.hardReset ∉ [.write (wordAccess 0) 0x00004110, .write (wordAccess 0) 0x00000003, .engine] ∧
    runEvents small [.write (wordAccess 0) 0x00004110, .write (wordAccess 0) 0x00000003, .engine] fresh =
      .next { fresh with symq := [0x41], overrun := true, pend := 0x00004110 } :=
  ⟨by decide, by decide, of_answer (by decide)⟩

theorem witness_IssueIsOneWriteAndOneStep : failedBit.busy = false := by decide

/-- The smallest container and one with the largest final count. -/
theorem witness_ContainerRoundTrips :
    ({ count := 2, leaves := [0x41, 0x42], final := 5, payload := [0x11] } : Container).Serializable ∧
    ({ count := 3, leaves := [0x41, 0x42, 0x4E], final := 8, payload := [0x25, 0x1B] } : Container).Serializable := by decide

theorem witness_ParsedContainersSerializeBack :
    parseContainer magic (magicBytes magic ++ [0x01, 0x41, 0x42, 0x05, 0x11]) =
      .ok { count := 2, leaves := [0x41, 0x42], final := 5, payload := [0x11] } := by decide

theorem witness_FoldingLowersSmallLettersOnly :
    fifoHost.foldCase = true ∧ (HostParams.binaryDefault magic).foldCase = false ∧
    (let text : List Byte := [0x60, 0x61, 0x7A, 0x7B]
     (0x61 ≤ (text.getD 1 0).toNat ∧ (text.getD 1 0).toNat ≤ 0x7A) ∧ (0x61 ≤ (text.getD 2 0).toNat ∧ (text.getD 2 0).toNat ≤ 0x7A) ∧
      (text.getD 0 0).toNat < 0x61 ∧ 0x7A < (text.getD 3 0).toNat) := by decide

theorem witness_BuilderNeedsTwoDistinctSymbols :
    (∃ a b : Byte, a ∈ [0x41, 0x42] ∧ b ∈ [0x41, 0x42] ∧ a ≠ b) ∧ (∀ a b : Byte, a ∈ [0x41, 0x41] → b ∈ [0x41, 0x41] → a = b) :=
  ⟨⟨0x41, 0x42, by decide⟩, fun a b ha hb => by simp at ha hb; rw [ha, hb]⟩

theorem witness_BuiltTreesAreWellFormed : buildTree fifoHost [0x42, 0x41] = .ok treeAB := by decide

/-- "ab", folded to "AB", at the smallest capacities the statement admits. -/
theorem witness_DecompressOfCompressIsTheFoldedText :
    ({ symqCap := 2, bitqCap := 1021, byteqCap := 128, leafqCap := 256, base := 0 } : Params).Legal ∧
    (∃ a b : Byte, a ∈ foldText fifoHost [0x61, 0x62] ∧ b ∈ foldText fifoHost [0x61, 0x62] ∧ a ≠ b) ∧
    ([0x61, 0x62] : List Byte).length ≤ 2 ∧ 511 + 255 * ([0x61, 0x62] : List Byte).length ≤ 1021 ∧
    511 + 255 * ([0x61, 0x62] : List Byte).length ≤ 8 * 128 :=
  ⟨by decide, ⟨0x41, 0x42, by decide⟩, by decide, by decide, by decide⟩

end Sys2Proof.Tests
end

section
/-! PROOF. The scope family: the reset state meets the invariant of 10_state.md, and `exec` and `step` are one instance of the
parametrised block (00_scope.md R7). -/

namespace Sys2Proof.Machine

/-! The invariant's parts at reset: each reads 70_reset_and_hazards.md R230's values through the reset laws. -/

/-- R27: empty queues fit any capacity. -/
theorem State.reset_capacityInv (p : Params) : State.reset.CapacityInv p := by simp [State.CapacityInv]

/-- R29: no tree is loaded. -/
theorem State.reset_treeInv : State.reset.TreeInv := rfl

/-- R33: FINAL_VALID resets to 8, the upper end of its range. -/
theorem State.reset_finalInv : State.reset.FinalInv := by simp [State.FinalInv]

theorem State.reset_resultInv : State.reset.ResultInv := by simp [State.ResultInv]

theorem State.reset_errorInv : State.reset.ErrorInv := by simp [State.ErrorInv]

/-- R200: ERRCODE resets to 0, the code of no error. -/
theorem State.reset_errorCodeInv : State.reset.ErrorCodeInv := by simp [State.ErrorCodeInv]

/-- R36, R47: DANGLING and DROP_COUNT reset to 0 together. -/
theorem State.reset_dropInv (p : Params) : State.reset.DropInv p := by simp [State.DropInv]

/-- Of the whole invariant only the legality of the parameters is not reset's own. -/
theorem State.reset_inv {p : Params} (hp : p.Legal) : State.reset.Inv p :=
  ⟨hp, State.reset_capacityInv p, State.reset_treeInv, State.reset_finalInv, State.reset_resultInv, State.reset_errorInv,
    State.reset_errorCodeInv, State.reset_dropInv p⟩

/-- R7: the instance `exec` and `step` are has legal parameters. -/
theorem blockParams_legal : blockParams.Legal := by decide

/-- Settles O40: reset meets the invariant part by part, and the instance's own parameters are literals. -/
theorem resetMeetsTheInvariant : Obligations.ResetMeetsTheInvariant :=
  ⟨fun _ hp => State.reset_inv hp, blockParams_legal⟩

/-- Settles O56, by the laws that relate `exec` to `execAt` (one case per command) and `step` to `stepAt` (through the decoder). -/
theorem execAndStepAreOneInstance : Obligations.ExecAndStepAreOneInstance :=
  ⟨exec_eq_execAt, step_eq_stepAt⟩

end Sys2Proof.Machine
end

section
/-! PROOF. The state family (10_state.md): what every engine step keeps, what it may change, and what the registers show. -/

namespace Sys2Proof.Machine

/-! What an engine step can leave, in the terms the invariant and the frame need. -/

/-- 60_exceptions.md R200: the kinds the block itself raises. -/
def raisedKinds : List ErrorKind :=
  [.invalidBitValue, .unknownSymbol, .malformedTree, .unexpectedEof, .illegalCommand, .invalidOperand, .overflow]

/-- Every raised kind is one of the block's own, from the rules' inversion. -/
theorem raisedKinds_of_ruleAt_error {p : Params} {i : Instr} {s : State} {e : ErrorKind} (h : ruleAt p i s = .error e) :
    e ∈ raisedKinds :=
  (by decide : [ErrorKind.invalidBitValue, .unknownSymbol, .malformedTree, .unexpectedEof, .invalidOperand, .overflow] ⊆ raisedKinds)
    (ruleAt_eq_error h)

/-- R241: but for BUSY, an engine step leaves the state as it was, enters an error, or commits the pending command. -/
theorem stepAt_outcome {p : Params} {s t : State} (h : stepAt p s = .next t) :
    ∃ u, t = u.release ∧ (u = s ∨ (∃ e ∈ raisedKinds, u = fail e (opcOf s.pend) s) ∨
      ∃ i, decodeInstr s.pend = some i ∧ Committed p i s u) := by
  obtain ⟨-, ⟨-, ht⟩ | ⟨-, -, ht⟩ | ⟨-, i, hi, ⟨u, hu, ht⟩ | ⟨e, he, ht⟩⟩⟩ := stepAt_cases h
  · exact ⟨s, ht, .inl rfl⟩
  · exact ⟨_, ht, .inr (.inl ⟨_, by decide, rfl⟩)⟩
  · exact ⟨u, ht, .inr (.inr ⟨i, hi, ruleAt_eq_ok.mp hu⟩)⟩
  · exact ⟨_, ht, .inr (.inl ⟨e, raisedKinds_of_ruleAt_error he, rfl⟩)⟩

/-! The invariant: one rule per update of the state, with the condition under which the update keeps it. -/

/-- R45: a number within the largest capacity R7 admits does not wrap as a 32-bit value. -/
theorem word_toNat_ofNat {n : Nat} (h : n ≤ 2 ^ 32 - 1) : (BitVec.ofNat 32 n : Word).toNat = n := by
  rw [BitVec.toNat_ofNat, Nat.mod_eq_of_lt (by omega)]

section Updates

variable {p : Params} {s : State}

theorem State.Inv.setSymq (h : s.Inv p) {q : List Byte} (hq : q.length ≤ p.symqCap) : (s.setSymq q).Inv p := by
  obtain ⟨hp, ⟨-, hb, hy, hl⟩, hrest⟩ := h
  exact ⟨hp, ⟨hq, hb, hy, hl⟩, hrest⟩

theorem State.Inv.setBitq (h : s.Inv p) {q : List Bit} (hq : q.length ≤ p.bitqCap) : (s.setBitq q).Inv p := by
  obtain ⟨hp, ⟨hs, -, hy, hl⟩, hrest⟩ := h
  exact ⟨hp, ⟨hs, hq, hy, hl⟩, hrest⟩

theorem State.Inv.setByteq (h : s.Inv p) {q : List Byte} (hq : q.length ≤ p.byteqCap) : (s.setByteq q).Inv p := by
  obtain ⟨hp, ⟨hs, hb, -, hl⟩, hrest⟩ := h
  exact ⟨hp, ⟨hs, hb, hq, hl⟩, hrest⟩

theorem State.Inv.setLeafq (h : s.Inv p) {q : List Byte} (hq : q.length ≤ p.leafqCap) : (s.setLeafq q).Inv p := by
  obtain ⟨hp, ⟨hs, hb, hy, -⟩, hrest⟩ := h
  exact ⟨hp, ⟨hs, hb, hy, hq⟩, hrest⟩

theorem State.Inv.setTree (h : s.Inv p) {r : TreeReg} (hr : r.wellFormed = true) : (s.setTree r).Inv p := by
  obtain ⟨hp, hcap, -, hrest⟩ := h
  exact ⟨hp, hcap, hr, hrest⟩

theorem State.Inv.setFinalValid (h : s.Inv p) {f : Nat} (hf : 1 ≤ f ∧ f ≤ 8) : (s.setFinalValid f).Inv p := by
  obtain ⟨hp, hcap, htree, -, hrest⟩ := h
  exact ⟨hp, hcap, htree, hf, hrest⟩

theorem State.Inv.setResult (h : s.Inv p) {v : Word} (hv : v.toNat < 256) : (s.setResult v).Inv p := by
  obtain ⟨hp, hcap, htree, hfinal, -, hrest⟩ := h
  exact ⟨hp, hcap, htree, hfinal, hv, hrest⟩

/-- R36, R47: a count within BITQ_CAP does not wrap, so DROP_COUNT is 0 exactly when the count is. -/
theorem State.Inv.setDropped (h : s.Inv p) {k : Nat} (hk : k ≤ p.bitqCap) : (s.setDropped k).Inv p := by
  obtain ⟨hp, hcap, htree, hfinal, hresult, herr, hcode, -⟩ := h
  have ⟨_, ⟨_, hbitq⟩, _⟩ := hp
  have hcount : (BitVec.ofNat 32 k).toNat = k := word_toNat_ofNat (hk.trans hbitq)
  refine ⟨hp, hcap, htree, hfinal, hresult, herr, hcode, ?_, ?_⟩
  · simp only [State.setDropped_dangling, State.setDropped_dropCount, decide_eq_true_eq, ne_eq, ← BitVec.toNat_inj, hcount]
    rfl
  · simpa only [State.setDropped_dropCount, hcount] using hk

/-- R200: no kind's code is 0, which ERRCODE holds for no error. -/
theorem ErrorKind.code_ne_zero (e : ErrorKind) : e.code ≠ 0 := by cases e <;> decide

theorem ErrorKind.code_mem_of_raised {e : ErrorKind} (he : e ∈ raisedKinds) :
    e.code ∈ ([0x00, 0x01, 0x03, 0x04, 0x09, 0x0A, 0x0B, 0x0C] : List Byte) :=
  (by decide : ∀ e ∈ raisedKinds, e.code ∈ ([0x00, 0x01, 0x03, 0x04, 0x09, 0x0A, 0x0B, 0x0C] : List Byte)) e he

theorem State.Inv.fail (h : s.Inv p) {e : ErrorKind} (he : e ∈ raisedKinds) (opc : Byte) : (fail e opc s).Inv p := by
  obtain ⟨hp, hcap, htree, hfinal, hresult, -, -, hdrop⟩ := h
  exact ⟨hp, hcap, htree, hfinal, hresult, by simpa [State.ErrorInv] using e.code_ne_zero, ErrorKind.code_mem_of_raised he, hdrop⟩

theorem State.Inv.acknowledge (h : s.Inv p) : (acknowledge s).Inv p := by
  obtain ⟨hp, hcap, htree, hfinal, hresult, -, -, hdrop⟩ := h
  exact ⟨hp, hcap, htree, hfinal, hresult, by simp [State.ErrorInv], by simp [State.ErrorCodeInv], hdrop⟩

/-- BUSY is no part of the invariant. -/
theorem State.Inv.release (h : s.Inv p) : s.release.Inv p := h

/-- SOFT_RESET keeps BUSY alone, and BUSY is no part of the invariant. -/
theorem State.Inv.softReset (h : s.Inv p) : { State.reset with busy := s.busy }.Inv p :=
  State.reset_inv h.1

end Updates

/-! The conditions those rules ask, for what the commands write. -/

/-- R115: a zero-extended Byte is below 256. -/
theorem zextByte_lt (b : Byte) : (zextByte b).toNat < 256 := by
  rw [zextByte, BitVec.toNat_setWidth_of_le (by decide)]
  exact b.isLt

theorem zextBit_lt (b : Bit) : (zextBit b).toNat < 256 := by cases b <;> decide

/-- 44_pack.md R170: the final valid count is 1..8. -/
theorem packBits_final_bounds (bits : List Bit) : 1 ≤ (packBits bits).2 ∧ (packBits bits).2 ≤ 8 := by
  simp only [packBits]
  split <;> omega

/-- 43_codec.md R152, R153: DECODE drops no more bits than BITQ holds; under a tree what it drops is the end of BITQ after the last code. -/
theorem TreeReg.dropped_le {r : TreeReg} (hw : r.wellFormed = true) (bits : List Bit) : (r.decodeSymbols bits).2 ≤ bits.length := by
  cases r with
  | empty => exact le_rfl
  | loaded t =>
    obtain ⟨out, e, rest, he, rfl, hrest⟩ := bits_decompose hw bits
    rw [TreeReg.decodeSymbols, decodeBits_encoded (t.wellFormed_iff.mp hw).1 he hrest]
    simp

/-- 42_tree.md R130: what TREE_LOAD leaves of BITQ is an end of it. -/
theorem parse_rest_length_le {bits bits' : List Bit} {lv lv' : List Byte} {t : Tree} (h : parse bits lv = some (t, bits', lv')) :
    bits'.length ≤ bits.length := by
  rw [(parse_eq_some_iff.mp h).1]
  simp

/-- The tail of a queue within its capacity is within it. -/
theorem tail_length_le {α : Type} {q rest : List α} {x : α} {cap : Nat} (hq : q = x :: rest) (h : q.length ≤ cap) : rest.length ≤ cap := by
  rw [hq, List.length_cons] at h
  omega

/-- Every committed command keeps the invariant: its update's rule, with the condition its rule has checked. -/
theorem Committed.inv {p : Params} {i : Instr} {s u : State} (hc : Committed p i s u) (h : s.Inv p) : u.Inv p := by
  have ⟨_, ⟨hsymq, hbitq, hbyteq, hleafq⟩, htree, _⟩ := h
  cases i with
  | nop => exact hc ▸ h
  | softReset => exact hc ▸ h.softReset
  | clearErr => exact hc ▸ h.acknowledge
  | pushSym v =>
    obtain ⟨-, hroom, rfl⟩ := hc
    exact h.setSymq (by simpa using hroom)
  | pushBit v =>
    obtain ⟨-, hroom, rfl⟩ := hc
    exact h.setBitq (by simpa using hroom)
  | pushByte v =>
    obtain ⟨-, hroom, rfl⟩ := hc
    exact h.setByteq (by simpa using hroom)
  | pushLeaf v =>
    obtain ⟨-, hroom, rfl⟩ := hc
    exact h.setLeafq (by simpa using hroom)
  | popSym =>
    obtain ⟨x, rest, hq, rfl⟩ := hc
    exact (h.setSymq (tail_length_le hq hsymq)).setResult (zextByte_lt x)
  | popBit =>
    obtain ⟨x, rest, hq, rfl⟩ := hc
    exact (h.setBitq (tail_length_le hq hbitq)).setResult (zextBit_lt x)
  | popByte =>
    obtain ⟨x, rest, hq, rfl⟩ := hc
    exact (h.setByteq (tail_length_le hq hbyteq)).setResult (zextByte_lt x)
  | popLeaf =>
    obtain ⟨x, rest, hq, rfl⟩ := hc
    exact (h.setLeafq (tail_length_le hq hleafq)).setResult (zextByte_lt x)
  | treeLoad =>
    obtain ⟨t, bits, hparse, hwf, rfl⟩ := hc
    exact ((h.setTree (r := .loaded t) hwf).setBitq ((parse_rest_length_le hparse).trans hbitq)).setLeafq (Nat.zero_le _)
  | treeStore =>
    obtain ⟨hbits, hleaves, rfl⟩ := hc
    exact (h.setBitq (by simpa using hbits)).setLeafq (by simpa using hleaves)
  | treeClear => exact hc ▸ h.setTree rfl
  | encode =>
    obtain ⟨out, -, hroom, rfl⟩ := hc
    exact (h.setBitq (by simpa using hroom)).setSymq (Nat.zero_le _)
  | decode =>
    obtain ⟨hroom, rfl⟩ := hc
    exact ((h.setSymq (by simpa using hroom)).setBitq (Nat.zero_le _)).setDropped ((TreeReg.dropped_le htree _).trans hbitq)
  | pack =>
    obtain ⟨hroom, rfl⟩ := hc
    exact ((h.setByteq (by simpa using hroom)).setBitq (Nat.zero_le _)).setFinalValid (packBits_final_bounds _)
  | unpack =>
    obtain ⟨r, -, hroom, rfl⟩ := hc
    exact (h.setBitq (by simpa using hroom)).setByteq (Nat.zero_le _)
  | setFinal v =>
    obtain ⟨hrange, rfl⟩ := hc
    exact h.setFinalValid hrange

/-- R241: the engine step keeps the invariant, whatever the parameters. -/
theorem stepAt_inv {p : Params} {s t : State} (h : s.Inv p) (hst : stepAt p s = .next t) : t.Inv p := by
  obtain ⟨u, rfl, rfl | ⟨e, he, rfl⟩ | ⟨i, -, hc⟩⟩ := stepAt_outcome hst
  · exact h.release
  · exact (h.fail he _).release
  · exact (hc.inv h).release

/-- Settles O41: each of a step's three outcomes keeps the invariant, a committed command by the rules of the updates it makes. -/
theorem everyStepKeepsTheInvariant : Obligations.EveryStepKeepsTheInvariant :=
  ⟨fun _ _ _ => stepAt_inv, fun _ _ h hst => stepAt_inv h (by rwa [step_eq_stepAt] at hst)⟩

/-! The bounds on trees and the codes (R29, R31). -/

/-- R29 (a): a `Node` has a leaf on each side. -/
theorem Tree.two_le_leaves {t : Tree} (hn : t.isNode = true) : 2 ≤ t.leaves.length := by
  cases t with
  | leaf s => cases hn
  | node z o =>
    have := z.leaves_length_pos
    have := o.leaves_length_pos
    simp only [Tree.leaves, List.length_append]
    omega

/-- R29, R30: a well-formed tree has 2..256 leaves. -/
theorem Tree.leaves_bounds {t : Tree} (hw : t.wellFormed = true) : 2 ≤ t.leaves.length ∧ t.leaves.length ≤ 256 := by
  obtain ⟨hn, hd⟩ := t.wellFormed_iff.mp hw
  exact ⟨t.two_le_leaves hn, nodup_bytes_length hd⟩

/-- Settles O19: the leaf counts from distinctness of bytes, the rest from the two inductions over trees. -/
theorem wellFormedTreesAreBounded : Obligations.WellFormedTreesAreBounded := by
  intro t hw
  obtain ⟨hmin, hmax⟩ := Tree.leaves_bounds hw
  have hnodes := t.nodes_eq
  have hdepth := t.depth_lt_leaves
  exact ⟨hmin, hmax, by omega, by omega, by omega⟩

/-- R31: under distinct leaves, a leaf of the one-branch is none of the zero-branch's, so its path begins with 1. -/
theorem Tree.code_of_mem_one {z o : Tree} {x : Byte} (hw : (Tree.node z o).wellFormed = true) (hx : x ∈ o.leaves) :
    (Tree.node z o).code x = (o.code x).map (true :: ·) := by
  have hd : (z.leaves ++ o.leaves).Nodup := ((Tree.wellFormed_iff _).mp hw).2
  have hz : x ∉ z.leaves := fun hxz => (List.nodup_append.mp hd).2.2 x hxz x hx rfl
  simp [Tree.code, hz]

/-- Settles O20, by the inductions over trees on codes; the bound of 255 bits is R29's on the depth. -/
theorem codesArePrefixFree : Obligations.CodesArePrefixFree := by
  refine ⟨fun x => by simp [Tree.code], fun z o x hx => by simp [Tree.code, hx], fun z o x => Tree.code_of_mem_one, ?_⟩
  intro t hw
  refine ⟨t.code_some_iff, fun x c hc => ?_, fun x y c d => Tree.code_prefix_free⟩
  have hlen := Tree.code_length_le_depth hc
  have hdepth := t.depth_lt_leaves
  have hmax := (Tree.leaves_bounds hw).2
  exact ⟨Tree.code_length_pos (t.wellFormed_iff.mp hw).1 hc, hlen, by omega⟩

/-! The frame: which elements a word of a given opcode can change. -/

/-- 10_state.md R23 to R26, R28, R33, R34, R36, R37: between the two states each element changed only if `opc` is one of the opcodes
its rule lists, SOFT_RESET's among them; an error and OVERRUN are cleared only by 1 and 2, and OVERRUN is not set. -/
structure Frame (opc : Byte) (s t : State) : Prop where
  symq : t.symq ≠ s.symq → opc ∈ ([0x01, 0x10, 0x18, 0x30, 0x31] : List Byte)
  bitq : t.bitq ≠ s.bitq → opc ∈ ([0x01, 0x11, 0x19, 0x20, 0x21, 0x30, 0x31, 0x40, 0x41] : List Byte)
  byteq : t.byteq ≠ s.byteq → opc ∈ ([0x01, 0x12, 0x1A, 0x40, 0x41] : List Byte)
  leafq : t.leafq ≠ s.leafq → opc ∈ ([0x01, 0x13, 0x1B, 0x20, 0x21] : List Byte)
  tree : t.tree ≠ s.tree → opc ∈ ([0x01, 0x20, 0x22] : List Byte)
  finalValid : t.finalValid ≠ s.finalValid → opc ∈ ([0x01, 0x40, 0x42] : List Byte)
  result : t.result ≠ s.result → opc ∈ ([0x01, 0x18, 0x19, 0x1A, 0x1B] : List Byte)
  dropped : t.dropCount ≠ s.dropCount ∨ t.dangling ≠ s.dangling → opc ∈ ([0x01, 0x31] : List Byte)
  errors : (s.err = true → t.err = true) ∧ t.overrun = s.overrun ∨ opc ∈ ([0x01, 0x02] : List Byte) ∧ t.overrun = false

theorem Frame.refl (opc : Byte) (s : State) : Frame opc s s := by constructor <;> simp

/-- R201: error entry records the error and changes nothing else. -/
theorem Frame.fail (opc : Byte) (s : State) (e : ErrorKind) : Frame opc s (fail e opc s) := by constructor <;> simp

/-- BUSY is none of the elements. -/
theorem Frame.release {opc : Byte} {s t : State} (h : Frame opc s t) : Frame opc s t.release := by
  obtain ⟨hsymq, hbitq, hbyteq, hleafq, htree, hfinal, hresult, hdropped, herrors⟩ := h
  exact ⟨hsymq, hbitq, hbyteq, hleafq, htree, hfinal, hresult, hdropped, herrors⟩

/-- A committed command writes only the elements that list its opcode. The cases stand together by what their rules check. -/
theorem Committed.frame {p : Params} {i : Instr} {s u : State} (hc : Committed p i s u) : Frame i.opcode s u := by
  cases i with
  | nop | softReset | clearErr | treeClear =>
    obtain rfl := hc
    constructor <;> simp [Instr.opcode]
  | pushSym v | pushBit v | pushByte v | pushLeaf v | treeStore =>
    obtain ⟨-, -, rfl⟩ := hc
    constructor <;> simp [Instr.opcode]
  | popSym | popBit | popByte | popLeaf =>
    obtain ⟨-, -, -, rfl⟩ := hc
    constructor <;> simp [Instr.opcode]
  | treeLoad =>
    obtain ⟨-, -, -, -, rfl⟩ := hc
    constructor <;> simp [Instr.opcode]
  | encode | unpack =>
    obtain ⟨-, -, -, rfl⟩ := hc
    constructor <;> simp [Instr.opcode]
  | decode | pack | setFinal v =>
    obtain ⟨-, rfl⟩ := hc
    constructor <;> simp [Instr.opcode]

/-- Every engine step changes only what the pending word's opcode lists. -/
theorem stepAt_frame {p : Params} {s t : State} (h : stepAt p s = .next t) : Frame (opcOf s.pend) s t := by
  obtain ⟨u, rfl, rfl | ⟨e, -, rfl⟩ | ⟨i, hi, hc⟩⟩ := stepAt_outcome h
  · exact (Frame.refl _ _).release
  · exact (Frame.fail _ _ e).release
  · exact ((decodeInstr_eq_some hi).1 ▸ hc.frame).release

/-- Settles O36: the queues' part of the frame. -/
theorem queuesChangeOnlyThroughTheirCommands : Obligations.QueuesChangeOnlyThroughTheirCommands := by
  intro p s t h
  have hf := stepAt_frame (steps_iff.mp h)
  exact ⟨hf.symq, hf.bitq, hf.byteq, hf.leafq⟩

/-- Settles O37: the scalars' part of the frame. -/
theorem scalarsChangeOnlyThroughTheirCommands : Obligations.ScalarsChangeOnlyThroughTheirCommands := by
  intro p s t h
  have hf := stepAt_frame (steps_iff.mp h)
  exact ⟨hf.tree, hf.finalValid, hf.result, hf.dropped⟩

/-- 30_encoding.md R81: SOFT_RESET and CLEAR_ERR take no operand, so a word that spells a command with one of their opcodes is exactly
0x00000001 or 0x00000002. -/
theorem acknowledging_word {w : Word} {i : Instr} (h : decodeInstr w = some i) (ho : opcOf w ∈ ([0x01, 0x02] : List Byte)) :
    w = 0x00000001 ∨ w = 0x00000002 := by
  rw [← encodeWord_opcOf_opdOf w]
  rw [decodeInstr] at h
  simp only [List.mem_cons, List.not_mem_nil, or_false] at ho
  obtain ho | ho := ho
  · rw [ho] at h ⊢
    rw [(noOperand_eq_some.mp h).1]
    exact .inl (by decide)
  · rw [ho] at h ⊢
    rw [(noOperand_eq_some.mp h).1]
    exact .inr (by decide)

/-- R35, R37, R205: a step keeps a recorded error and OVERRUN, or its word is an acknowledging one, and then OVERRUN is 0. -/
theorem stepAt_errors {p : Params} {s t : State} (h : stepAt p s = .next t) :
    (s.err = true → t.err = true) ∧ t.overrun = s.overrun ∨ (s.pend = 0x00000001 ∨ s.pend = 0x00000002) ∧ t.overrun = false := by
  obtain ⟨u, rfl, rfl | ⟨e, -, rfl⟩ | ⟨i, hi, hc⟩⟩ := stepAt_outcome h
  · exact .inl ⟨id, rfl⟩
  · exact .inl ⟨fun _ => rfl, rfl⟩
  · obtain hkept | ⟨ho, hoverrun⟩ := hc.frame.errors
    · exact .inl hkept
    · exact .inr ⟨acknowledging_word hi ((decodeInstr_eq_some hi).1 ▸ ho), hoverrun⟩

/-- Settles O35: a step keeps the error and OVERRUN, or its word is one of the two. -/
theorem errorsStayUntilAcknowledged : Obligations.ErrorsStayUntilAcknowledged := by
  intro p s t h
  obtain ⟨herr, hoverrun⟩ | ⟨hword, hoverrun⟩ := stepAt_errors (steps_iff.mp h)
  · exact ⟨fun hs ht => by simp [herr hs] at ht, fun hs ht => by simp [hoverrun, hs] at ht, fun hs => hoverrun.trans hs⟩
  · exact ⟨fun _ _ => hword, fun _ _ => hword, fun _ => hoverrun⟩

/-! The registers as views (R40 to R48). -/

/-- A flag shows at its own bit and nowhere else. -/
theorem flagBit_getLsbD (b : Bool) {n : Nat} (hn : n < 32) (k : Nat) : (flagBit b n).getLsbD k = (decide (k = n) && b) := by
  cases b with
  | false => simp [flagBit]
  | true =>
    simp only [flagBit, if_true, Bool.and_true, BitVec.getLsbD_shiftLeft, BitVec.getLsbD_one]
    by_cases hk : k = n
    · simp [hk, hn]
    · simp [hk]; omega

/-- R41: STATUS bit by bit. -/
theorem State.statusReg_getLsbD (s : State) (k : Nat) :
    s.statusReg.getLsbD k =
      (decide (k = 0) && s.busy || decide (k = 1) && s.err || decide (k = 2) && s.treeValid || decide (k = 3) && s.dangling ||
        decide (k = 4) && s.overrun || decide (k = 5) && s.symq.isEmpty || decide (k = 6) && s.bitq.isEmpty ||
        decide (k = 7) && s.byteq.isEmpty || decide (k = 8) && s.leafq.isEmpty) := by
  simp [State.statusReg, flagBit_getLsbD]

/-- R41: TREE_VALID. -/
theorem State.treeValid_iff (s : State) : s.treeValid = true ↔ ∃ t, s.tree = .loaded t := by
  unfold State.treeValid
  cases s.tree <;> simp

/-- R41: bits 31:9 of STATUS read 0. -/
theorem State.statusReg_getLsbD_of_le {s : State} {n : Nat} (hn : 9 ≤ n) : s.statusReg.getLsbD n = false := by
  simp only [State.statusReg_getLsbD, Bool.or_eq_false_iff, Bool.and_eq_false_imp, decide_eq_true_eq]
  omega

/-- Settles O43: each flag is its bit of the register's bitwise form; the value after reset is a literal. -/
theorem statusBitsAreViews : Obligations.StatusBitsAreViews := by
  refine ⟨fun s => ?_, by decide⟩
  refine ⟨?busy, ?err, ?treeValid, ?dangling, ?overrun, ?symq, ?bitq, ?byteq, ?leafq, fun n => State.statusReg_getLsbD_of_le, rfl⟩
  case treeValid => simp only [State.statusReg_getLsbD, ← State.treeValid_iff]; simp
  all_goals simp only [State.statusReg_getLsbD]; simp

/-- R42: the two bytes of ERRINFO do not overlap. -/
theorem State.errInfoReg_toNat (s : State) : s.errInfoReg.toNat = s.errOpc.toNat * 256 + s.errCode.toNat := by
  have hopc := s.errOpc.isLt
  have hcode := s.errCode.isLt
  rw [State.errInfoReg, BitVec.toNat_or, BitVec.toNat_shiftLeft, BitVec.toNat_setWidth_of_le (by decide),
    BitVec.toNat_setWidth_of_le (by decide), Nat.mod_eq_of_lt (by rw [Nat.shiftLeft_eq]; omega),
    ← Nat.shiftLeft_add_eq_or_of_lt hcode, Nat.shiftLeft_eq]

/-- R45: a queue within a capacity R7 admits is counted with no wrap. -/
theorem countReg_toNat {α : Type} {q : List α} {cap : Nat} (hq : q.length ≤ cap) (hcap : cap ≤ 2 ^ 32 - 1) :
    (countReg q).toNat = q.length :=
  word_toNat_ofNat (hq.trans hcap)

/-- R46: the leaves of a well-formed tree are counted with no wrap. -/
theorem State.treeLeavesReg_toNat {s : State} {t : Tree} (hs : s.tree = .loaded t) (hw : t.wellFormed = true) :
    s.treeLeavesReg.toNat = t.leaves.length := by
  have hmax := (Tree.leaves_bounds hw).2
  rw [State.treeLeavesReg, hs]
  exact word_toNat_ofNat (hmax.trans (by decide))

/-- R44: FINAL shows FINAL_VALID with no wrap. -/
theorem State.finalReg_toNat {s : State} (h : s.FinalInv) : s.finalReg.toNat = s.finalValid :=
  word_toNat_ofNat (h.2.trans (by decide))

/-- R40, R48: CMD and the reserved offsets read 0. -/
theorem readReg_reserved (s : State) : ∀ off ∈ [0x00, 0x2C, 0x30, 0x34, 0x38, 0x3C], readReg off s = 0 := by
  simp [readReg]

/-- Settles O44: each offset's register, whose element the invariant keeps below 2^32. -/
theorem registersAreViews : Obligations.RegistersAreViews := by
  intro p s h
  obtain ⟨⟨⟨-, hsymCap⟩, ⟨-, hbitCap⟩, ⟨-, hbyteCap⟩, ⟨-, hleafCap⟩, -⟩, ⟨hsymq, hbitq, hbyteq, hleafq⟩, htree, hfinal, hresult, -⟩ := h
  refine ⟨s.errInfoReg_toNat, rfl, hresult, State.finalReg_toNat hfinal, countReg_toNat hsymq hsymCap, countReg_toNat hbitq hbitCap,
    countReg_toNat hbyteq hbyteCap, countReg_toNat hleafq hleafCap, fun hs => ?_, fun t hs => ?_, rfl, readReg_reserved s⟩
  · simp [readReg, State.treeLeavesReg, hs, TreeReg.leafCount]
  · have hw : t.wellFormed = true := by rwa [State.TreeInv, hs] at htree
    exact ⟨State.treeLeavesReg_toNat hs hw, Tree.leaves_bounds hw⟩

end Sys2Proof.Machine
end

section
/-! PROOF. The memory family (20_memory.md): which accesses the window answers, and that any interleaving of engine and host leaves what
issuing the accepted words in order leaves, but for OVERRUN. -/

namespace Sys2Proof.Machine

/-! Host accesses (R61). -/

/-- R61: the accesses inside the spec. -/
theorem Access.admitted_iff (a : Access) : a.admitted = true ↔ a.width = 32 ∧ a.off % 4 = 0 ∧ a.off < 0x40 :=
  decide_eq_true_iff

theorem hostRead_admitted {a : Access} (h : a.admitted = true) (s : State) : hostRead a s = .ok (readReg a.off s) := by
  rw [hostRead, if_pos h]

theorem hostWrite_admitted {a : Access} (h : a.admitted = true) (v : Word) (s : State) : hostWrite a v s = .ok (writeReg a.off v s) := by
  rw [hostWrite, if_pos h]

theorem hostRead_refused {a : Access} (h : ¬ a.admitted = true) (s : State) : hostRead a s = .error .accessOutsideSpec := by
  rw [hostRead, if_neg h]

theorem hostWrite_refused {a : Access} (h : ¬ a.admitted = true) (v : Word) (s : State) : hostWrite a v s = .error .accessOutsideSpec := by
  rw [hostWrite, if_neg h]

/-- Settles O46: the two cases are the admitted accesses and the others. -/
theorem accessesOutsideTheSpecAreRefused : Obligations.AccessesOutsideTheSpecAreRefused := by
  intro s a v
  constructor
  · intro hout
    have hrefused : ¬ a.admitted = true := by
      rw [a.admitted_iff]
      omega
    exact ⟨hostRead_refused hrefused s, hostWrite_refused hrefused v s⟩
  · intro hwidth halign hwindow
    have hadmitted := a.admitted_iff.mpr ⟨hwidth, halign, hwindow⟩
    exact ⟨hostRead_admitted hadmitted s, _, hostWrite_admitted hadmitted v s⟩

/-! OVERRUN is invisible to the engine (10_state.md R37): erasing it before a command or after it is the same. -/

/-- The state with OVERRUN erased: every element the sequential order of the accepted words determines. -/
def State.eraseOverrun (s : State) : State := { s with overrun := false }

/-- R37: a discarded write changes no element but OVERRUN. -/
theorem State.eraseOverrun_overrunSet (s : State) : s.overrunSet.eraseOverrun = s.eraseOverrun := rfl

/-- R38: the latch is PEND and BUSY. -/
theorem State.eraseOverrun_latch (s : State) (w : Word) : (s.latch w).eraseOverrun = s.eraseOverrun.latch w := rfl

/-- A `require` guards what its rest maps to. -/
theorem require_map {c : Bool} {e : ErrorKind} {rest : Except ErrorKind State} (f : State → State) :
    (require c e rest).map f = require c e (rest.map f) := by
  cases c <;> rfl

theorem push_map {α : Type} {q : List α} {cap : Nat} {v : α} {install : List α → State} (f : State → State) :
    (push q cap v install).map f = push q cap v fun q' => f (install q') :=
  require_map f

/-- R115: a pop writes RESULT, which is not OVERRUN. -/
theorem pop_map_eraseOverrun {α : Type} {q : List α} {zext : α → Word} {install : List α → State} :
    (pop q zext install).map State.eraseOverrun = pop q zext fun q' => (install q').eraseOverrun := by
  cases q <;> rfl

theorem except_bind_map {α : Type} {r : Except ErrorKind α} {k : α → Except ErrorKind State} (f : State → State) :
    (r.bind k).map f = r.bind fun a => (k a).map f := by
  cases r <;> rfl

/-- R37: no command's rule reads OVERRUN, and those that write it write 0. -/
theorem ruleAt_eraseOverrun (p : Params) (i : Instr) (s : State) :
    ruleAt p i s.eraseOverrun = (ruleAt p i s).map State.eraseOverrun := by
  cases i with
  | nop | softReset | clearErr | treeClear => rfl
  | pushSym v | pushBit v | pushByte v | pushLeaf v =>
    simp only [ruleAt, pushSymRule, pushBitRule, pushByteRule, pushLeafRule, except_bind_map, push_map]
    rfl
  | popSym | popBit | popByte | popLeaf =>
    simp only [ruleAt, popSymRule, popBitRule, popByteRule, popLeafRule, pop_map_eraseOverrun]
    rfl
  | setFinal v =>
    simp only [ruleAt, setFinalRule, except_bind_map]
    rfl
  | treeStore | decode | pack =>
    simp only [ruleAt, treeStoreRule, decodeRule, packRule, require_map]
    rfl
  | treeLoad =>
    simp only [ruleAt, treeLoadRule, State.eraseOverrun]
    cases parse s.bitq s.leafq with
    | none => rfl
    | some r => simp only [require_map]; rfl
  | encode =>
    simp only [ruleAt, encodeRule, State.eraseOverrun]
    cases s.tree.encodeSymbols s.symq with
    | none => rfl
    | some out => simp only [require_map]; rfl
  | unpack =>
    simp only [ruleAt, unpackRule, State.eraseOverrun]
    cases unpackBits s.byteq s.finalValid with
    | none => rfl
    | some r => simp only [require_map]; rfl

/-- R203: the gate reads ERR, not OVERRUN. -/
theorem gateOpen_eraseOverrun (opc : Byte) (s : State) : gateOpen opc s.eraseOverrun = gateOpen opc s := rfl

/-- R100: discarding, raising and committing all commute with the erasure. -/
theorem runRule_eraseOverrun {opc : Byte} {s t : State} {r : Except ErrorKind State} (h : runRule opc s r = .next t) :
    runRule opc s.eraseOverrun (r.map State.eraseOverrun) = .next t.eraseOverrun := by
  obtain ⟨hg, rfl⟩ | ⟨hg, rfl | ⟨e, rfl, rfl⟩⟩ := runRule_eq_next h <;> rw [← gateOpen_eraseOverrun] at hg
  · exact runRule_gated hg
  · exact runRule_ok hg
  · exact runRule_error hg

theorem executeAt_eraseOverrun {p : Params} {w : Word} {s t : State} (h : executeAt p w s = .next t) :
    executeAt p w s.eraseOverrun = .next t.eraseOverrun := by
  unfold executeAt at h ⊢
  cases hd : decodeInstr w with
  | none =>
    rw [hd] at h
    exact runRule_eraseOverrun h
  | some i =>
    rw [hd] at h
    simpa only [execAt, ruleAt_eraseOverrun] using runRule_eraseOverrun h

/-! The engine's step and the wait for it (70_reset_and_hazards.md R241, 80_host_interface.md R261). -/

theorem executeAt_next (p : Params) (w : Word) (s : State) : ∃ t, executeAt p w s = .next t := by
  unfold executeAt
  cases decodeInstr w with
  | none => exact ⟨_, rfl⟩
  | some i => exact execAt_next p i s

/-- R241: a busy block's step is its pending word's execution and the release of BUSY. -/
theorem stepAt_of_executeAt {p : Params} {s u : State} (hb : s.busy = true) (h : executeAt p s.pend s = .next u) :
    stepAt p s = .next u.release := by
  rw [stepAt, if_pos hb, State.pendingWord, h, retire]

theorem stepAt_idle_after {p : Params} {s t : State} (h : stepAt p s = .next t) : t.busy = false := by
  obtain ⟨u, rfl, -⟩ := stepAt_outcome h
  exact u.release_busy

theorem awaitIdle_of_idle {p : Params} {s : State} (h : s.busy = false) : awaitIdle p s = s := by
  rw [awaitIdle, stepAt_idle h]

theorem awaitIdle_of_step {p : Params} {s t : State} (h : stepAt p s = .next t) : awaitIdle p s = t := by
  rw [awaitIdle, h]

/-- R241: the engine step is enabled on every busy block, so the wait ends idle. -/
theorem awaitIdle_idle (p : Params) (s : State) : (awaitIdle p s).busy = false := by
  cases hb : s.busy with
  | false => rwa [awaitIdle_of_idle hb]
  | true =>
    obtain ⟨u, hu⟩ := executeAt_next p s.pend s
    rw [awaitIdle_of_step (stepAt_of_executeAt hb hu), State.release_busy]

theorem awaitIdle_eraseOverrun (p : Params) (s : State) : awaitIdle p s.eraseOverrun = (awaitIdle p s).eraseOverrun := by
  cases hb : s.busy with
  | false => rw [awaitIdle_of_idle hb, awaitIdle_of_idle (s := s.eraseOverrun) hb]
  | true =>
    obtain ⟨u, hu⟩ := executeAt_next p s.pend s
    rw [awaitIdle_of_step (stepAt_of_executeAt hb hu),
      awaitIdle_of_step (stepAt_of_executeAt (s := s.eraseOverrun) hb (executeAt_eraseOverrun hu))]
    rfl

/-! Issuing words (R261). -/

theorem writeReg_cmd_of_idle {s : State} (h : s.busy = false) (v : Word) : writeReg 0x00 v s = s.latch v := by
  simp [writeReg, h]

theorem writeReg_cmd_of_busy {s : State} (h : s.busy = true) (v : Word) : writeReg 0x00 v s = s.overrunSet := by
  simp [writeReg, h]

/-- R66: a write to another offset is ignored. -/
theorem writeReg_other {off : Nat} (h : off ≠ 0x00) (v : Word) (s : State) : writeReg off v s = s :=
  if_neg h

/-- R261: issuing is one accepted write between two waits. -/
theorem issue_eq (p : Params) (w : Word) (s : State) : issue p w s = awaitIdle p ((awaitIdle p s).latch w) := by
  rw [issue, writeReg_cmd_of_idle (awaitIdle_idle p s)]

theorem issue_eraseOverrun (p : Params) (w : Word) (s : State) : issue p w s.eraseOverrun = (issue p w s).eraseOverrun := by
  rw [issue_eq, issue_eq, awaitIdle_eraseOverrun, ← State.eraseOverrun_latch, awaitIdle_eraseOverrun]

theorem issueAll_cons (p : Params) (w : Word) (ws : List Word) (s : State) :
    issueAll p (w :: ws) s = issueAll p ws (issue p w s) := rfl

theorem issueAll_eraseOverrun (p : Params) (ws : List Word) (s : State) :
    issueAll p ws s.eraseOverrun = (issueAll p ws s).eraseOverrun := by
  induction ws generalizing s with
  | nil => rfl
  | cons w ws ih => rw [issueAll_cons, issueAll_cons, issue_eraseOverrun, ih]

/-! Runs (R71). -/

theorem ofAccess_eq_next {r : Except Refusal State} {t : State} (h : ofAccess r = .next t) : r = .ok t := by
  cases r with
  | ok u => injection h with h; rw [h]
  | error e => cases h

theorem runEvents_cons_eq_next {p : Params} {e : Event} {es : List Event} {s t : State} (h : runEvents p (e :: es) s = .next t) :
    ∃ u, stepEvent p e s = .next u ∧ runEvents p es u = .next t := by
  rw [runEvents] at h
  split at h
  next u hu => exact ⟨u, hu, h⟩
  next => cases h
  next => cases h

/-- R66: a read changes nothing. -/
theorem stepEvent_read_eq_next {p : Params} {a : Access} {s u : State} (h : stepEvent p (.read a) s = .next u) : u = s := by
  have hr := ofAccess_eq_next h
  cases hread : hostRead a s with
  | ok w => rw [hread] at hr; injection hr with hr; exact hr.symm
  | error e => rw [hread] at hr; cases hr

/-- R61, R260: a write that answers is an admitted one, and it writes its register. -/
theorem stepEvent_write_eq_next {p : Params} {a : Access} {v : Word} {s u : State} (h : stepEvent p (.write a v) s = .next u) :
    a.admitted = true ∧ u = writeReg a.off v s := by
  have hw := ofAccess_eq_next h
  by_cases ha : a.admitted = true
  · rw [hostWrite_admitted ha] at hw
    injection hw with hw
    exact ⟨ha, hw.symm⟩
  · rw [hostWrite_refused ha] at hw
    cases hw

/-- R71, R233: but for a reset, an event is an accepted write, which adds its word to the accepted ones, or it adds none: a discarded
write, an engine step, or an access that changes nothing. -/
theorem stepEvent_cases {p : Params} {e : Event} {s u : State} (h : stepEvent p e s = .next u) (he : e ≠ .hardReset) (es : List Event) :
    (∃ v, s.busy = false ∧ u = s.latch v ∧ acceptedWords p (e :: es) s = v :: acceptedWords p es u) ∨
    ((u = s ∨ s.busy = true ∧ u = s.overrunSet ∨ stepAt p s = .next u) ∧ acceptedWords p (e :: es) s = acceptedWords p es u) := by
  cases e with
  | hardReset => exact absurd rfl he
  | engine => exact .inr ⟨.inr (.inr h), by simp [acceptedWords, h]⟩
  | read a => exact .inr ⟨.inl (stepEvent_read_eq_next h), by simp [acceptedWords, h]⟩
  | write a v =>
    obtain ⟨hadmitted, hu⟩ := stepEvent_write_eq_next h
    by_cases hoff : a.off = 0x00
    · rw [hoff] at hu
      cases hb : s.busy with
      | false =>
        rw [writeReg_cmd_of_idle hb] at hu
        exact .inl ⟨v, rfl, hu, by simp [acceptedWords, h, hadmitted, hoff, hb]⟩
      | true =>
        rw [writeReg_cmd_of_busy hb] at hu
        exact .inr ⟨.inr (.inl ⟨rfl, hu⟩), by simp [acceptedWords, h, hb]⟩
    · rw [writeReg_other hoff] at hu
      exact .inr ⟨.inl hu, by simp [acceptedWords, h, hoff]⟩

/-- The simulation's step: the accepted words not yet executed, issued from where the pending command ends, leave the same before and
after every event but a reset. -/
theorem stepEvent_simulates {p : Params} {e : Event} {s u : State} (h : stepEvent p e s = .next u) (he : e ≠ .hardReset)
    (es : List Event) :
    (issueAll p (acceptedWords p (e :: es) s) (awaitIdle p s)).eraseOverrun =
      (issueAll p (acceptedWords p es u) (awaitIdle p u)).eraseOverrun := by
  obtain ⟨v, hb, rfl, hwords⟩ | ⟨hcase, hwords⟩ := stepEvent_cases h he es <;> rw [hwords]
  · rw [issueAll_cons, issue_eq, awaitIdle_of_idle (awaitIdle_idle p s), awaitIdle_of_idle hb]
  · obtain rfl | ⟨-, rfl⟩ | hstep := hcase
    · rfl
    · rw [← issueAll_eraseOverrun, ← issueAll_eraseOverrun, ← awaitIdle_eraseOverrun, ← awaitIdle_eraseOverrun,
        State.eraseOverrun_overrunSet]
    · rw [awaitIdle_of_step hstep, awaitIdle_of_idle (stepAt_idle_after hstep)]

/-- R71: a run with no reset that ends idle, from any state, busy or not. -/
theorem runEvents_sequential {p : Params} {es : List Event} {s t : State} (hreset : Event.hardReset ∉ es)
    (h : runEvents p es s = .next t) (ht : t.busy = false) :
    t.eraseOverrun = (issueAll p (acceptedWords p es s) (awaitIdle p s)).eraseOverrun := by
  induction es generalizing s with
  | nil =>
    cases h
    rw [awaitIdle_of_idle ht]
    rfl
  | cons e es ih =>
    obtain ⟨he, hes⟩ := not_or.mp (mt List.mem_cons.mpr hreset)
    obtain ⟨u, hu, hrun⟩ := runEvents_cons_eq_next h
    rw [stepEvent_simulates hu (Ne.symm he), ih hes hrun]

/-- Settles O48: the simulation from an idle state, where no command is pending. -/
theorem anyInterleavingIsSequential : Obligations.AnyInterleavingIsSequential := by
  intro p es s t hs hreset hrun ht
  have hsim := runEvents_sequential hreset hrun ht
  rwa [awaitIdle_of_idle hs] at hsim

end Sys2Proof.Machine
end

section
/-! PROOF. The encoding family (30_encoding.md): the decoder inverts the encoder, so a word is the encoding of at most one command, and
the words that are the encoding of none fail. -/

namespace Sys2Proof

/-! The decoder and the encoder are inverse to each other (R80, R83). -/

/-- R83: the opcode map gives each command back from its own opcode and operand, one case per row of the table. -/
theorem instrOf_opcode_operand (i : Instr) : instrOf i.opcode i.operand = some i := by cases i <;> rfl

theorem decodeInstr_encode (i : Instr) : decodeInstr (encode i) = some i := by
  rw [decodeInstr, encode, opcOf_encodeWord, opdOf_encodeWord, instrOf_opcode_operand]

/-- R80, R86: a word spells a command exactly when it is that command's encoding. -/
theorem decodeInstr_eq_some_iff {w : Word} {i : Instr} : decodeInstr w = some i ↔ encode i = w := by
  constructor
  · intro h
    obtain ⟨hopc, hopd⟩ := decodeInstr_eq_some h
    rw [encode, hopc, hopd, encodeWord_opcOf_opdOf]
  · rintro rfl
    exact decodeInstr_encode i

theorem decodeInstr_eq_none_iff_encode {w : Word} : decodeInstr w = none ↔ ∀ i, encode i ≠ w := by
  simp only [Option.eq_none_iff_forall_ne_some, ne_eq, decodeInstr_eq_some_iff]

/-- 20_memory.md R62: a word sent as its four byte lanes spells what the word spells. -/
theorem decodeBytes_laneByte (w : Word) :
    decodeBytes [laneByte w 0, laneByte w 1, laneByte w 2, laneByte w 3] = decodeInstr w := by
  rw [decodeBytes, wordOfLanes_laneByte]

/-- Settles O2: the opcode map inverts each command's two fields, and a word is its two fields and its four lanes. -/
theorem decodeOfEncodeIsTheCommand : Obligations.DecodeOfEncodeIsTheCommand :=
  fun i => ⟨decodeInstr_encode i, (decodeBytes_laneByte _).trans (decodeInstr_encode i)⟩

/-- Settles O1: the decoder evaluated on the ten literal words. -/
theorem specWordsDecodeToTheirCommands : Obligations.SpecWordsDecodeToTheirCommands := by
  unfold Obligations.SpecWordsDecodeToTheirCommands
  decide

/-! The three classes of words (R85), each by what the word spells. -/

theorem decode_eq_cmd_iff {w : Word} {i : Instr} : decode w = .cmd i ↔ decodeInstr w = some i ∧ i.wellFormed = true := by
  unfold decode
  cases decodeInstr w with
  | none => simp
  | some j => cases hj : j.wellFormed <;> grind

theorem decode_eq_badOperand_iff {w : Word} {i : Instr} :
    decode w = .badOperand i ↔ decodeInstr w = some i ∧ i.wellFormed = false := by
  unfold decode
  cases decodeInstr w with
  | none => simp
  | some j => cases hj : j.wellFormed <;> grind

theorem decode_eq_illegal_iff {w : Word} {opc : Byte} : decode w = .illegal opc ↔ opc = opcOf w ∧ decodeInstr w = none := by
  unfold decode
  cases decodeInstr w with
  | none => simp [eq_comm]
  | some j => cases hj : j.wellFormed <;> simp [hj]

/-- Settles O3: each class by what the word spells, and that by the encoding the word is. -/
theorem everyWordIsExactlyOneOfThree : Obligations.EveryWordIsExactlyOneOfThree := by
  intro w
  refine ⟨fun i => ?_, fun i => ?_, fun opc => ?_⟩
  · rw [decode_eq_cmd_iff, decodeInstr_eq_some_iff]
  · rw [decode_eq_badOperand_iff, decodeInstr_eq_some_iff]
  · rw [decode_eq_illegal_iff, decodeInstr_eq_none_iff_encode]

/-! The words that spell no command (R84). -/

/-- R84: the opcodes no row of the table has. -/
def ReservedOpcode (opc : Byte) : Prop :=
  (0x03 ≤ opc.toNat ∧ opc.toNat ≤ 0x0F) ∨ (0x14 ≤ opc.toNat ∧ opc.toNat ≤ 0x17) ∨
  (0x1C ≤ opc.toNat ∧ opc.toNat ≤ 0x1F) ∨ (0x23 ≤ opc.toNat ∧ opc.toNat ≤ 0x2F) ∨
  (0x32 ≤ opc.toNat ∧ opc.toNat ≤ 0x3F) ∨ 0x43 ≤ opc.toNat

/-- R81: the opcodes of the commands without an operand. -/
def noOperandOpcodes : List Byte :=
  [0x00, 0x01, 0x02, 0x18, 0x19, 0x1A, 0x1B, 0x20, 0x21, 0x22, 0x30, 0x31, 0x40, 0x41]

theorem noOperand_eq_none {v : Opd} {i : Instr} : noOperand v i = none ↔ v ≠ 0 := by
  unfold noOperand
  split <;> simp_all

/-- R84: the opcode map answers nothing on a reserved opcode, and on a no-operand opcode with an operand. Its rows are evaluated; its
last arm is the opcodes apart from them all, which are the reserved ranges. -/
theorem instrOf_eq_none_iff {opc : Byte} {v : Opd} :
    instrOf opc v = none ↔ ReservedOpcode opc ∨ (opc ∈ noOperandOpcodes ∧ v ≠ 0) := by
  unfold instrOf
  split
  case h_20 =>
    have hreserved : ReservedOpcode opc := by
      simp only [imp_false, ← BitVec.toNat_inj, BitVec.toNat_ofNat] at *
      unfold ReservedOpcode
      omega
    simp [hreserved]
  all_goals simp [noOperand_eq_none, ReservedOpcode, noOperandOpcodes]

end Sys2Proof

namespace Sys2Proof.Machine

/-- R84: executing a word that spells no command is `illegalWord`, whatever the parameters. -/
theorem executeAt_of_decode_none {w : Word} (h : decodeInstr w = none) (p : Params) (s : State) :
    executeAt p w s = illegalWord (opcOf w) s := by
  rw [executeAt, h]

/-- 60_exceptions.md R203: the gate is open with ERR = 0 or on an exempt opcode. -/
theorem gateOpen_iff {opc : Byte} {s : State} : gateOpen opc s = true ↔ s.err = false ∨ opc.toNat ≤ 2 := by
  rw [gateOpen, Bool.or_eq_true, Bool.not_eq_true', exempt_iff]

/-- R84, R201: behind an open gate the step enters `IllegalCommand`. -/
theorem stepAt_illegal_fails {p : Params} {s : State} (hb : s.busy = true) (hd : decodeInstr s.pend = none)
    (hg : gateOpen (opcOf s.pend) s = true) : stepAt p s = .next (fail .illegalCommand (opcOf s.pend) s).release :=
  stepAt_of_executeAt hb ((executeAt_of_decode_none hd p s).trans (runRule_error hg))

/-- R84, R203: a closed gate discards the word. -/
theorem stepAt_illegal_discarded {p : Params} {s : State} (hb : s.busy = true) (hd : decodeInstr s.pend = none)
    (hg : gateOpen (opcOf s.pend) s = false) : stepAt p s = .next s.release :=
  stepAt_of_executeAt hb ((executeAt_of_decode_none hd p s).trans (runRule_gated hg))

/-- Settles O4: the opcode map's unanswered words, and a step that executes one on each side of the ERR gate. -/
theorem illegalWordsFail : Obligations.IllegalWordsFail := by
  intro w
  refine ⟨instrOf_eq_none_iff, ?_⟩
  rintro p s hb rfl hd
  constructor
  · intro hopen
    exact steps_iff.mpr (stepAt_illegal_fails hb hd (gateOpen_iff.mpr hopen))
  · intro herr hopc
    have hclosed : gateOpen (opcOf s.pend) s = false := by
      rw [← Bool.not_eq_true, gateOpen_iff]
      simp [herr, hopc]
    exact steps_iff.mpr (stepAt_illegal_discarded hb hd hclosed)

end Sys2Proof.Machine
end

section
/-! PROOF. The control family (40_control.md): the exempt commands, which commit on either side of the ERR gate, and what a no-operand
opcode does with an operand. -/

namespace Sys2Proof

/-- 30_encoding.md R81: a no-operand opcode with an operand spells no command. -/
theorem decodeInstr_eq_none_of_operand {opc : Byte} {v : Opd} (hopc : opc ∈ noOperandOpcodes) (hv : v ≠ 0) :
    decodeInstr (encodeWord opc v) = none := by
  rw [decodeInstr, opcOf_encodeWord, opdOf_encodeWord, instrOf_eq_none_iff]
  exact .inr ⟨hopc, hv⟩

/-- R81: with operand 0 it spells the command that has the opcode. -/
theorem decodeInstr_encodeWord_zero {i : Instr} (hopc : i.opcode ∈ noOperandOpcodes) :
    decodeInstr (encodeWord i.opcode 0) = some i := by
  have hspells : decodeInstr (encodeWord i.opcode i.operand) = some i := decodeInstr_encode i
  by_cases hv : i.operand = 0
  · rwa [hv] at hspells
  · simp [decodeInstr_eq_none_of_operand hopc hv] at hspells

end Sys2Proof

namespace Sys2Proof.Machine

/-- R81, R84: every command with a no-operand opcode takes no operand: with one its word is illegal, and behind an open gate fails. -/
theorem takesNoOperand_of_mem {i : Instr} (hopc : i.opcode ∈ noOperandOpcodes) : TakesNoOperand i.opcode i := by
  refine ⟨decodeInstr_encodeWord_zero hopc, fun p s v hv hb hpend hopen => steps_iff.mpr ?_⟩
  have hillegal : decodeInstr s.pend = none := hpend ▸ decodeInstr_eq_none_of_operand hopc hv
  have hopcOf : opcOf s.pend = i.opcode := hpend ▸ opcOf_encodeWord _ _
  have hstep := stepAt_illegal_fails (p := p) hb hillegal (gateOpen_iff.mpr (hopcOf ▸ hopen))
  rwa [hopcOf] at hstep

/-- 40_control.md R100: behind an open gate a command answers what its rule commits. -/
theorem runs_of_committed {p : Params} {i : Instr} {s u : State} (hg : gateOpen i.opcode s = true) (hc : Committed p i s u) :
    Runs p i s u := by
  rw [runs_iff, execAt, ruleAt_eq_ok.mpr hc, runRule_ok hg]

/-- 60_exceptions.md R203: an exempt command answers what its rule commits, whatever ERR is. -/
theorem runs_of_exempt {p : Params} {i : Instr} {s u : State} (hi : i.opcode.toNat ≤ 2) (hc : Committed p i s u) : Runs p i s u :=
  runs_of_committed (gateOpen_iff.mpr (.inr hi)) hc

/-- 70_reset_and_hazards.md R241: a busy block's step runs the command PEND spells and releases BUSY. -/
theorem steps_of_runs {p : Params} {i : Instr} {s t : State} (hb : s.busy = true) (hd : decodeInstr s.pend = some i)
    (h : Runs p i s t) : Steps p s t.release := by
  refine steps_iff.mpr (stepAt_of_executeAt hb ?_)
  rw [executeAt, hd]
  exact runs_iff.mp h

/-- R102: SOFT_RESET answers the reset state with BUSY as it was. -/
theorem runs_softReset (p : Params) (s : State) : Runs p .softReset s { State.reset with busy := s.busy } :=
  runs_of_exempt (by decide) rfl

/-- 10_state.md R41: after an acknowledgement STATUS shows no error and no overrun. -/
theorem acknowledge_statusReg (s : State) :
    (acknowledge s).statusReg.getLsbD 1 = false ∧ (acknowledge s).statusReg.getLsbD 4 = false := by
  rw [State.statusReg_getLsbD, State.statusReg_getLsbD]
  simp

/-- Settles O7: NOP is exempt and commits the state itself. -/
theorem nopChangesNothing : Obligations.NopChangesNothing :=
  ⟨takesNoOperand_of_mem (i := .nop) (by decide), fun _ _ => runs_of_exempt (by decide) rfl⟩

/-- Settles O8: SOFT_RESET keeps BUSY alone, and the step that runs it releases BUSY. -/
theorem softResetRestoresTheResetState : Obligations.SoftResetRestoresTheResetState := by
  refine ⟨takesNoOperand_of_mem (i := .softReset) (by decide), fun p s => ⟨runs_softReset p s, fun hb hpend => ?_⟩⟩
  have hd : decodeInstr s.pend = some .softReset := by
    rw [hpend]
    decide
  exact steps_of_runs hb hd (runs_softReset p s)

/-- Settles O9: CLEAR_ERR is exempt and commits the acknowledgement, whose two flags STATUS shows. -/
theorem clearErrClearsTheErrorState : Obligations.ClearErrClearsTheErrorState :=
  ⟨takesNoOperand_of_mem (i := .clearErr) (by decide), fun _ s =>
    ⟨acknowledge s, runs_of_exempt (by decide) rfl, rfl, acknowledge_statusReg s⟩⟩

end Sys2Proof.Machine
end

section
/-! PROOF. The queue family (41_queue.md): the four pushes are an operand check before one push, the four pops one pop, and the empty
flags of STATUS show what they leave. -/

namespace Sys2Proof.Machine

/-! The empty flags (10_state.md R41, bits 5 to 8). -/

@[simp] theorem State.statusReg_symq_empty (s : State) : s.statusReg[5] = s.symq.isEmpty := by
  rw [← BitVec.getLsbD_eq_getElem, State.statusReg_getLsbD]
  simp

@[simp] theorem State.statusReg_bitq_empty (s : State) : s.statusReg[6] = s.bitq.isEmpty := by
  rw [← BitVec.getLsbD_eq_getElem, State.statusReg_getLsbD]
  simp

@[simp] theorem State.statusReg_byteq_empty (s : State) : s.statusReg[7] = s.byteq.isEmpty := by
  rw [← BitVec.getLsbD_eq_getElem, State.statusReg_getLsbD]
  simp

@[simp] theorem State.statusReg_leafq_empty (s : State) : s.statusReg[8] = s.leafq.isEmpty := by
  rw [← BitVec.getLsbD_eq_getElem, State.statusReg_getLsbD]
  simp

/-! Running a command with ERR = 0 (40_control.md R100). -/

/-- R100, R203: with ERR = 0 every command answers what its rule commits. -/
theorem runs_of_no_error {p : Params} {i : Instr} {s u : State} (he : s.err = false) (hc : Committed p i s u) : Runs p i s u :=
  runs_of_committed (gateOpen_of_no_error he) hc

/-- 60_exceptions.md R201: a command whose rule raises enters the error with its kind's code and its own opcode. -/
theorem runs_of_raised {p : Params} {i : Instr} {s : State} (he : s.err = false) (e : ErrorKind) (h : ruleAt p i s = .error e) :
    Runs p i s (s.failedWith e.code i.opcode) :=
  runs_iff.mpr (execAt_of_rule_error he h)

/-! A push behind an operand check (60_exceptions.md R204: range before capacity). -/

section Push
variable {α : Type} {q : List α} {cap : Nat} {install : List α → State}

/-- R82: an operand out of range raises the check's kind, whatever the queue holds. -/
theorem checkedPush_out_of_range {operand : Except ErrorKind α} {e : ErrorKind} (h : operand = .error e) :
    (operand.bind fun b => push q cap b install) = .error e :=
  except_bind_eq_error.mpr (.inl h)

/-- R110: an operand in range meets a full queue. -/
theorem checkedPush_full {operand : Except ErrorKind α} {b : α} (h : operand = .ok b) (hfull : cap < q.length + 1) :
    (operand.bind fun b => push q cap b install) = .error .overflow :=
  except_bind_eq_error.mpr (.inr ⟨b, h, push_eq_error.mpr ⟨hfull, rfl⟩⟩)

end Push

/-- Settles O10: one byte operand check before three queues' pushes, by its range and then by the queue's room. -/
theorem bytePushesAppendOrFail : Obligations.BytePushesAppendOrFail := by
  intro p s v
  refine ⟨⟨decodeInstr_encode (.pushSym v), decodeInstr_encode (.pushByte v), decodeInstr_encode (.pushLeaf v)⟩,
    fun he hrange => ?inRange, fun he hrange => ?outOfRange⟩
  case inRange =>
    have hbyte : byteOperand v = .ok (v.setWidth 8) := byteOperand_eq_ok.mpr ⟨hrange, rfl⟩
    refine ⟨?symRoom, ?byteRoom, ?leafRoom, ?symFull, ?byteFull, ?leafFull⟩
    case symRoom | byteRoom | leafRoom =>
      intro hroom
      exact ⟨runs_of_no_error he ⟨hrange, hroom, rfl⟩, by simp⟩
    case symFull | byteFull | leafFull =>
      intro hfull
      exact runs_of_raised he .overflow (checkedPush_full hbyte hfull)
  case outOfRange =>
    have hbyte : byteOperand v = .error .invalidOperand := byteOperand_eq_error.mpr ⟨hrange, rfl⟩
    refine ⟨?sym, ?byte, ?leaf⟩
    case sym | byte | leaf => exact runs_of_raised he .invalidOperand (checkedPush_out_of_range hbyte)

/-- Settles O11: the bit operand check admits 0 and 1 alone, and only then does the room in BITQ count. -/
theorem pushBitAppendsOrFails : Obligations.PushBitAppendsOrFails := by
  refine ⟨by decide, fun p s v => ⟨decodeInstr_encode (.pushBit v), fun he => ⟨?room, ?notABit, ?full⟩⟩⟩
  case room =>
    intro hbit hroom
    exact ⟨runs_of_no_error he ⟨hbit, hroom, rfl⟩, by simp⟩
  case notABit =>
    intro hrange
    exact runs_of_raised he .invalidBitValue (checkedPush_out_of_range (bitOperand_eq_error.mpr ⟨hrange, rfl⟩))
  case full =>
    intro hbit hfull
    exact runs_of_raised he .overflow (checkedPush_full (bitOperand_eq_ok.mpr ⟨hbit, rfl⟩) hfull)

/-- R115: zext_32 keeps the byte's number. -/
theorem zextByte_eq (b : Byte) : zextByte b = BitVec.ofNat 32 b.toNat := (BitVec.ofNat_toNat 32 b).symm

/-- Settles O12: a pop commits the head's removal and its zero-extension, and raises on an empty queue alone. -/
theorem popsMoveTheHeadToResult : Obligations.PopsMoveTheHeadToResult := by
  refine ⟨⟨takesNoOperand_of_mem (i := .popSym) (by decide), takesNoOperand_of_mem (i := .popBit) (by decide),
    takesNoOperand_of_mem (i := .popByte) (by decide), takesNoOperand_of_mem (i := .popLeaf) (by decide)⟩, fun p s he => ?_⟩
  refine ⟨?sym, ?bit, ?byte, ?leaf, ?noSym, ?noBit, ?noByte, ?noLeaf⟩
  case bit =>
    intro x rest hq
    exact ⟨_, runs_of_no_error he ⟨x, rest, hq, rfl⟩, rfl, by simp⟩
  case sym | byte | leaf =>
    intro x rest hq
    refine ⟨_, runs_of_no_error he ⟨x, rest, hq, rfl⟩, ?_, by simp⟩
    rw [zextByte_eq]
    rfl
  case noSym | noBit | noByte | noLeaf =>
    intro hq
    exact runs_of_raised he .unexpectedEof (pop_eq_error.mpr ⟨hq, rfl⟩)

end Sys2Proof.Machine
end

section
/-! PROOF. The tree family (42_tree.md): `parse` without its bound, TREE_LOAD as the inverse of flatten, TREE_STORE and TREE_CLEAR. -/

namespace Sys2Proof.Machine

/-! `parse` and its bound (R130). -/

/-- R130: a bound of len(bits) or more on the calls of `parse` is never met, since both answer the tree whose flattened form the inputs
start with. -/
theorem parseWithin_eq_parse {n : Nat} {bits : List Bit} (hn : bits.length ≤ n) (lv : List Byte) :
    parseWithin n bits lv = parse bits lv := by
  refine Option.ext fun ⟨t, bits', lv'⟩ => ⟨fun h => parse_eq_some_iff.mpr (parseWithin_sound h), fun h => ?_⟩
  obtain ⟨rfl, rfl⟩ := parse_eq_some_iff.mp h
  rw [List.length_append] at hn
  exact parseWithin_complete t _ _ (by omega)

/-- R130: `parse` consumes at least the one bit a shape has. -/
theorem parse_rest_length_lt {bits bits' : List Bit} {lv lv' : List Byte} {t : Tree} (h : parse bits lv = some (t, bits', lv')) :
    bits'.length < bits.length := by
  have hshape := List.length_pos_iff.mpr t.shape_ne_nil
  rw [(parse_eq_some_iff.mp h).1, List.length_append]
  omega

/-- R130: after a 1 the zero-branch is parsed, and then the one-branch from what the zero-branch left. -/
theorem parse_true_cons (bits : List Bit) (lv : List Byte) :
    parse (true :: bits) lv =
      (parse bits lv).bind fun (z, bits₁, lv₁) =>
        (parse bits₁ lv₁).map fun (o, bits₂, lv₂) => (.node z o, bits₂, lv₂) := by
  change parseWithin (bits.length + 1) (true :: bits) lv = _
  rw [parseWithin, parseWithin_eq_parse le_rfl]
  cases hz : parse bits lv with
  | none => rfl
  | some r =>
    obtain ⟨z, bits₁, lv₁⟩ := r
    simp only [parseWithin_eq_parse (parse_rest_length_lt hz).le, Option.bind_some]
    cases parse bits₁ lv₁ <;> rfl

/-- Settles O13: the equation of the 1 bit, in which no bound is left, gives its three cases; the other equations compute. -/
theorem parseFollowsItsEquations : Obligations.ParseFollowsItsEquations := by
  refine ⟨fun _ => rfl, fun _ => rfl, fun _ _ _ => rfl, ?zeroFails, ?oneFails, ?node, fun _ _ _ _ _ => parse_rest_length_lt,
    fun _ _ lv hn => parseWithin_eq_parse hn lv⟩
  case zeroFails =>
    intro bits lv hz
    simp [parse_true_cons, hz]
  case oneFails =>
    intro bits lv z bits₁ lv₁ hz ho
    simp [parse_true_cons, hz, ho]
  case node =>
    intro bits lv z bits₁ lv₁ o bits₂ lv₂ hz ho
    simp [parse_true_cons, hz, ho]

/-- R136: the flattened form of a tree parses to it, with the following bits and no leaf left. -/
theorem parse_flatten (t : Tree) (rest : List Bit) : parse (t.shape ++ rest) t.leaves = some (t, rest, []) :=
  parse_eq_some_iff.mpr ⟨rfl, (List.append_nil _).symm⟩

/-- Settles O17: the counts of every tree, whose shape is one bit shorter than twice its leaves. -/
theorem shapeLengthFollowsLeafCount : Obligations.ShapeLengthFollowsLeafCount := fun t _ =>
  ⟨Nat.eq_sub_of_add_eq t.shape_length, t.shape_count_false, Nat.eq_sub_of_add_eq t.shape_count_true⟩

/-! What the registers show of TREE (10_state.md R41, R46). -/

@[simp] theorem State.statusReg_tree_valid (s : State) : s.statusReg[2] = s.treeValid := by
  rw [← BitVec.getLsbD_eq_getElem, State.statusReg_getLsbD]
  simp

/-! TREE_LOAD (R131). -/

/-- R131: on the flattened form of a well-formed tree TREE_LOAD installs the tree, removes its shape, and empties LEAFQ. -/
theorem runs_treeLoad {s : State} (he : s.err = false) {t : Tree} {rest : List Bit} (hw : t.wellFormed = true)
    (hbits : s.bitq = t.shape ++ rest) (hleaves : s.leafq = t.leaves) (p : Params) :
    Runs p .treeLoad s { s with tree := .loaded t, bitq := rest, leafq := [] } := by
  have hparse : parse s.bitq s.leafq = some (t, rest, []) := hbits ▸ hleaves ▸ parse_flatten t rest
  exact runs_of_no_error he ⟨t, rest, hparse, hw, rfl⟩

/-- R131: TREE_LOAD raises no kind but `MalformedTree`. -/
theorem treeLoadRule_error {s : State} {e : ErrorKind} (h : treeLoadRule s = .error e) : e = .malformedTree := by
  unfold treeLoadRule at h
  split at h
  · cases h
    rfl
  · simp only [require_eq_error, reduceCtorEq, and_false, or_false] at h
    obtain ⟨-, rfl⟩ | ⟨-, ⟨-, rfl⟩ | ⟨-, -, rfl⟩⟩ := h <;> rfl

/-- R131: unless a well-formed tree parses with no leaf left, TREE_LOAD fails with `MalformedTree`. -/
theorem runs_treeLoad_malformed {s : State} (he : s.err = false)
    (h : ∀ t bits, parse s.bitq s.leafq = some (t, bits, []) → ¬ t.wellFormed = true) (p : Params) :
    Runs p .treeLoad s (s.failedWith 0x04 0x20) := by
  refine runs_of_raised he .malformedTree ?_
  cases hr : ruleAt p .treeLoad s with
  | ok u =>
    obtain ⟨t, bits, hparse, hw, -⟩ := ruleAt_eq_ok.mp hr
    exact absurd hw (h t bits hparse)
  | error e => rw [treeLoadRule_error hr]

/-- Settles O14: TREE_LOAD commits on the flattened form of a well-formed tree, and each other case shuts out what a commit has parsed. -/
theorem treeLoadInvertsFlattenOrFails : Obligations.TreeLoadInvertsFlattenOrFails := by
  refine ⟨takesNoOperand_of_mem (i := .treeLoad) (by decide), fun p s he => ⟨?loads, ?noTree, ?parseFails, ?leaf, ?leavesLeft, ?repeated⟩⟩
  case loads =>
    intro t rest hw hbits hleaves
    exact ⟨_, runs_treeLoad he hw hbits hleaves p, rfl, by simp [State.treeValid], State.treeLeavesReg_toNat rfl hw, by simp, by simp⟩
  case noTree =>
    intro hnone
    refine runs_treeLoad_malformed he (fun t rest hparse hw => ?_) p
    obtain ⟨hbits, hleaves⟩ := parse_eq_some_iff.mp hparse
    exact hnone t rest hw hbits (by simpa using hleaves)
  case parseFails =>
    intro hfails
    exact runs_treeLoad_malformed he (by simp [hfails]) p
  case leaf =>
    intro x bits lv hleaf
    exact runs_treeLoad_malformed he (by simp [hleaf, Tree.wellFormed_iff, Tree.isNode]) p
  case leavesLeft =>
    intro t bits x lv hleft
    exact runs_treeLoad_malformed he (by simp [hleft]) p
  case repeated =>
    intro t bits lv hrepeated hdup
    exact runs_treeLoad_malformed he (by simp [hrepeated, Tree.wellFormed_iff, hdup]) p

/-! TREE_STORE and TREE_CLEAR (R133, R134). -/

/-- R133: with room in both queues TREE_STORE appends the flattened form of TREE, loaded or not. -/
theorem runs_treeStore {p : Params} {s : State} {sh : List Bit} {lv : List Byte} (he : s.err = false) (hflat : s.tree.flatten = (sh, lv))
    (hbits : s.bitq.length + sh.length ≤ p.bitqCap) (hleaves : s.leafq.length + lv.length ≤ p.leafqCap) :
    Runs p .treeStore s { s with bitq := s.bitq ++ sh, leafq := s.leafq ++ lv } := by
  apply runs_of_no_error he
  rw [Committed, hflat]
  exact ⟨hbits, hleaves, rfl⟩

/-- R133: with too little room in either queue TREE_STORE raises `Overflow`. -/
theorem treeStoreRule_overflow {p : Params} {s : State} {sh : List Bit} {lv : List Byte} (hflat : s.tree.flatten = (sh, lv))
    (hfull : p.bitqCap < s.bitq.length + sh.length ∨ p.leafqCap < s.leafq.length + lv.length) :
    treeStoreRule p s = .error .overflow := by
  simp only [treeStoreRule, hflat, require_eq_error, decide_eq_false_iff_not, decide_eq_true_eq, Nat.not_le, and_true]
  by_cases hbits : s.bitq.length + sh.length ≤ p.bitqCap
  · exact .inr ⟨hbits, .inl (hfull.resolve_left hbits.not_gt)⟩
  · exact .inl (not_le.mp hbits)

/-- Settles O15: no tree, a tree with room in both queues, and a tree with too little in one. -/
theorem treeStoreAppendsTheFlattenedTree : Obligations.TreeStoreAppendsTheFlattenedTree := by
  refine ⟨takesNoOperand_of_mem (i := .treeStore) (by decide), fun p s he => ⟨fun hempty hcap => ?noTree, fun t htree => ?loaded⟩⟩
  case noTree =>
    obtain ⟨-, hbitq, -, hleafq⟩ := hcap
    have hflat : s.tree.flatten = ([], []) := by rw [hempty, TreeReg.flatten]
    simpa using runs_treeStore he hflat hbitq hleafq
  case loaded =>
    have hflat : s.tree.flatten = (t.shape, t.leaves) := by rw [htree, TreeReg.flatten, Tree.flatten]
    refine ⟨fun hbits hleaves => ⟨_, runs_treeStore he hflat hbits hleaves, rfl, ?_, ?_⟩, fun hfull => ?_⟩
    · simp [t.shape_ne_nil]
    · simp [t.leaves_ne_nil]
    · exact runs_of_raised he .overflow (treeStoreRule_overflow hflat hfull)

/-- Settles O16: TREE_CLEAR always commits, and both views of an empty TREE read 0. -/
theorem treeClearReleasesTheTree : Obligations.TreeClearReleasesTheTree :=
  ⟨takesNoOperand_of_mem (i := .treeClear) (by decide), fun _ s he =>
    ⟨s.setTree .empty, runs_of_no_error he rfl, rfl, by simp [State.treeValid], rfl⟩⟩

/-! The round trip (R136). -/

/-- R6, R7: empty queues have room for the flattened form of a well-formed tree. -/
theorem Tree.flatten_fits {t : Tree} (hw : t.wellFormed = true) {p : Params} (hp : p.Legal) :
    t.shape.length ≤ p.bitqCap ∧ t.leaves.length ≤ p.leafqCap := by
  obtain ⟨-, ⟨hbits, -⟩, -, ⟨hleaves, -⟩, -⟩ := hp
  have hshape := t.shape_length
  have hmax := (Tree.leaves_bounds hw).2
  omega

/-- Settles O18: `parse` inverts flatten; on empty queues TREE_STORE leaves exactly a flattened form, from which TREE_LOAD installs the
tree that was there, whatever TREE holds by then. -/
theorem storeThenLoadRestoresTheTree : Obligations.StoreThenLoadRestoresTheTree := by
  refine ⟨fun t rest _ => parse_flatten t rest, ?_⟩
  rintro p s t ⟨hp, -, hwf, -⟩ he htree hbitq hleafq
  have hw : t.wellFormed = true := by rwa [State.TreeInv, htree] at hwf
  obtain ⟨hbits, hleaves⟩ := Tree.flatten_fits hw hp
  have hflat : s.tree.flatten = (t.shape, t.leaves) := by rw [htree, TreeReg.flatten, Tree.flatten]
  have hstore : Runs p .treeStore s { s with bitq := t.shape, leafq := t.leaves } := by
    simpa [hbitq, hleafq] using runs_treeStore (p := p) he hflat (by simpa [hbitq] using hbits) (by simpa [hleafq] using hleaves)
  have hrestored : { s with tree := .loaded t, bitq := [], leafq := [] } = s := by rw [← htree, ← hbitq, ← hleafq]
  have hload (r : TreeReg) : Runs p .treeLoad { s with tree := r, bitq := t.shape, leafq := t.leaves } s := by
    simpa only [hrestored] using
      runs_treeLoad (s := { s with tree := r, bitq := t.shape, leafq := t.leaves }) he hw (List.append_nil _).symm rfl p
  exact ⟨_, hstore, hload s.tree, hload .empty⟩

end Sys2Proof.Machine
end

section
/-! PROOF. The codec family (43_codec.md): what the decoder answers on any bits, its round trip with the encoder, and what ENCODE and
DECODE commit or raise. -/

namespace Sys2Proof.Machine

/-! The decoder characterised by the codes (R152, R155). -/

/-- R155: the decoder answers exactly the decomposition of the bits into whole codes and then part of one code, or nothing. -/
theorem decodeBits_eq_iff {t : Tree} (hw : t.wellFormed = true) {bits : List Bit} {out : List Byte} {k : Nat} :
    decodeBits t bits = (out, k) ↔ ∃ e p, encodeBits t out = some e ∧ bits = e ++ p ∧ p.length = k ∧
      (p = [] ∨ ∃ x c, t.code x = some c ∧ p <+: c ∧ p ≠ c) := by
  have hn : t.isNode = true := (t.wellFormed_iff.mp hw).1
  constructor
  · intro hdecode
    obtain ⟨out', e, p, he, rfl, hp⟩ := bits_decompose hw bits
    rw [decodeBits_encoded hn he hp, Prod.mk.injEq] at hdecode
    obtain ⟨rfl, rfl⟩ := hdecode
    exact ⟨e, p, he, rfl, rfl, hp⟩
  · rintro ⟨e, p, he, rfl, rfl, hp⟩
    exact decodeBits_encoded hn he hp

/-- Settles O23: every bit list decomposes into codes and a partial code, and the decoder reads that decomposition off. -/
theorem decodingIsCharacterised : Obligations.DecodingIsCharacterised := by
  intro t hw
  refine ⟨fun bits out k => decodeBits_eq_iff hw, fun bits => ?complete⟩
  obtain ⟨x, c, rest, hc, rfl⟩ | ⟨x, c, hc, hprefix, -⟩ := t.code_complete (t.wellFormed_iff.mp hw).2 bits
  · exact ⟨x, c, hc, .inr (List.prefix_append c rest)⟩
  · exact ⟨x, c, hc, .inl hprefix⟩

/-- R154: the bits of whole codes decode to their symbols with nothing dropped. -/
theorem decodeBits_encodeBits {t : Tree} (hw : t.wellFormed = true) {syms : List Byte} {e : List Bit}
    (he : encodeBits t syms = some e) : decodeBits t e = (syms, 0) :=
  (decodeBits_eq_iff hw).mpr ⟨e, [], he, (List.append_nil e).symm, rfl, .inl rfl⟩

/-- R152: what is dropped is shorter than some code, or nothing. -/
theorem decodeBits_dropped_le {t : Tree} (hw : t.wellFormed = true) (bits : List Bit) : (decodeBits t bits).2 ≤ t.depth - 1 := by
  obtain ⟨e, p, -, -, hk, rfl | ⟨x, c, hc, hprefix, hne⟩⟩ := (decodeBits_eq_iff hw).mp (Prod.mk.eta (p := decodeBits t bits)).symm
  · exact hk ▸ Nat.zero_le _
  · have hshorter : p.length < c.length := hprefix.length_le.lt_of_ne fun hlen => hne (hprefix.eq_of_length hlen)
    have hdepth := Tree.code_length_le_depth hc
    omega

/-! What a command that did not fail has done, and what the invariant says of TREE. -/

/-- 40_control.md R100, 60_exceptions.md R201: from ERR = 0 a command that leaves ERR = 0 has committed. -/
theorem committed_of_runs {p : Params} {i : Instr} {s u : State} (he : s.err = false) (h : Runs p i s u) (hu : u.err = false) :
    Committed p i s u := by
  obtain ⟨hgate, -⟩ | ⟨-, hok | ⟨e, -, rfl⟩⟩ := execAt_cases (runs_iff.mp h)
  · simp [gateOpen_of_no_error he] at hgate
  · exact ruleAt_eq_ok.mp hok
  · simp at hu

/-- 10_state.md R29: in a state that meets the invariant a loaded tree is well formed. -/
theorem State.Inv.loaded_wellFormed {p : Params} {s : State} {t : Tree} (h : s.Inv p) (htree : s.tree = .loaded t) :
    t.wellFormed = true := by
  obtain ⟨-, -, hwf, -⟩ := h
  rwa [State.TreeInv, htree] at hwf

/-! ENCODE (R150, R151). -/

/-- R151: an empty SYMQ encodes to no bits, with or without a tree. -/
theorem TreeReg.encodeSymbols_nil (r : TreeReg) : r.encodeSymbols [] = some [] := by
  cases r <;> rfl

/-- R150: symbols that are all leaves encode to their codes in order. -/
theorem encodeBits_of_leaves {t : Tree} {xs : List Byte} (h : ∀ x ∈ xs, x ∈ t.leaves) :
    encodeBits t xs = some (xs.flatMap fun x => (t.code x).getD []) := by
  obtain ⟨e, he⟩ := (encodeBits_some_iff t xs).mpr h
  rw [he, ← encodeBits_eq_flatMap he]

/-- R150: one symbol that is no leaf makes the whole encoding fail. -/
theorem encodeBits_of_unknown {t : Tree} {xs : List Byte} (h : ∃ x ∈ xs, x ∉ t.leaves) : encodeBits t xs = none := by
  obtain ⟨x, hx, hunknown⟩ := h
  exact Option.eq_none_iff_forall_ne_some.mpr fun e he => hunknown ((encodeBits_some_iff t xs).mp ⟨e, he⟩ x hx)

section Encode
variable {p : Params} {s : State}

/-- R151: with every symbol known and room in BITQ, ENCODE moves SYMQ's codes to BITQ. -/
theorem runs_encode (he : s.err = false) {out : List Bit} (hout : s.tree.encodeSymbols s.symq = some out)
    (hroom : s.bitq.length + out.length ≤ p.bitqCap) : Runs p .encode s { s with bitq := s.bitq ++ out, symq := [] } :=
  runs_of_no_error he ⟨out, hout, hroom, rfl⟩

/-- R151: with every symbol known and too little room, ENCODE fails with `Overflow`. -/
theorem runs_encode_overflow (he : s.err = false) {out : List Bit} (hout : s.tree.encodeSymbols s.symq = some out)
    (hfull : p.bitqCap < s.bitq.length + out.length) : Runs p .encode s (s.failedWith 0x0C 0x30) := by
  refine runs_of_raised he .overflow ?_
  simp [ruleAt, encodeRule, hout, require, hfull.not_ge]

/-- R151: with a symbol unknown ENCODE fails with `UnknownSymbol`, whatever room there is. -/
theorem runs_encode_unknown (he : s.err = false) (hout : s.tree.encodeSymbols s.symq = none) :
    Runs p .encode s (s.failedWith 0x03 0x30) := by
  refine runs_of_raised he .unknownSymbol ?_
  simp [ruleAt, encodeRule, hout]

end Encode

/-- Settles O21: no symbols, symbols of the tree by the room for their codes, an unknown symbol, and symbols without a tree. -/
theorem encodeAppendsTheCodes : Obligations.EncodeAppendsTheCodes := by
  refine ⟨takesNoOperand_of_mem (i := .encode) (by decide), fun p s he => ⟨?noSymbols, ?known, ?unknown, ?noTree⟩⟩
  case noSymbols =>
    intro hsymq hroom
    have hout : s.tree.encodeSymbols s.symq = some [] := by rw [hsymq, TreeReg.encodeSymbols_nil]
    have hsame : { s with bitq := s.bitq ++ [], symq := [] } = s := by rw [List.append_nil, ← hsymq]
    have hrun := runs_encode he hout hroom
    rw [hsame] at hrun
    exact ⟨hrun, by simp [hsymq]⟩
  case known =>
    intro t out htree hleaves hcodes
    have hout : s.tree.encodeSymbols s.symq = some out := by rw [htree, TreeReg.encodeSymbols, encodeBits_of_leaves hleaves, hcodes]
    exact ⟨fun hroom => ⟨_, runs_encode he hout hroom, rfl, by simp, fun hne => by simp [hne]⟩, runs_encode_overflow he hout⟩
  case unknown =>
    intro t htree hunknown
    exact runs_encode_unknown he (by rw [htree, TreeReg.encodeSymbols, encodeBits_of_unknown hunknown])
  case noTree =>
    intro htree hsymq
    obtain ⟨x, xs, hcons⟩ := List.exists_cons_of_ne_nil hsymq
    exact runs_encode_unknown he (by rw [htree, hcons, TreeReg.encodeSymbols])

/-! DECODE (R152, R153). -/

@[simp] theorem State.statusReg_dangling (s : State) : s.statusReg[3] = s.dangling := by
  rw [← BitVec.getLsbD_eq_getElem, State.statusReg_getLsbD]
  simp

section Decode
variable {p : Params} {s : State} {out : List Byte} {k : Nat}

/-- R153: with room in SYMQ, DECODE moves the decoded symbols there and records the dropped bits. -/
theorem runs_decode (he : s.err = false) (hout : s.tree.decodeSymbols s.bitq = (out, k))
    (hroom : s.symq.length + out.length ≤ p.symqCap) :
    Runs p .decode s { s with symq := s.symq ++ out, bitq := [], dropCount := BitVec.ofNat 32 k, dangling := decide (k ≠ 0) } := by
  apply runs_of_no_error he
  rw [Committed, hout]
  exact ⟨hroom, rfl⟩

/-- R153: with too little room in SYMQ, DECODE fails with `Overflow`. -/
theorem runs_decode_overflow (he : s.err = false) (hout : s.tree.decodeSymbols s.bitq = (out, k))
    (hfull : p.symqCap < s.symq.length + out.length) : Runs p .decode s (s.failedWith 0x0C 0x31) := by
  refine runs_of_raised he .overflow ?_
  simp [ruleAt, decodeRule, hout, require, hfull.not_ge]

end Decode

/-- Settles O22: both cases of TREE give one result of decoding, and SYMQ has room for its symbols or not. -/
theorem decodeDrainsTheBits : Obligations.DecodeDrainsTheBits := by
  refine ⟨takesNoOperand_of_mem (i := .decode) (by decide), fun p s he out k hcases => ?_⟩
  have hout : s.tree.decodeSymbols s.bitq = (out, k) := by
    obtain ⟨htree, rfl, rfl⟩ | ⟨t, htree, hdecode⟩ := hcases
    · rw [htree, TreeReg.decodeSymbols]
    · rw [htree, TreeReg.decodeSymbols, hdecode]
  exact ⟨fun hroom => ⟨_, runs_decode he hout hroom, rfl, by simp, rfl, by simp, fun hne => by simp [hne]⟩, runs_decode_overflow he hout⟩

/-- Settles O24: a partial code is shorter than the tree is deep, and a tree of distinct bytes is at most 255 deep. -/
theorem droppedBitsAreBounded : Obligations.DroppedBitsAreBounded := by
  refine ⟨fun t bits hw => decodeBits_dropped_le hw bits, ?_⟩
  intro p s u t hinv he htree hrun hu
  have hw := hinv.loaded_wellFormed htree
  obtain ⟨-, rfl⟩ := committed_of_runs he hrun hu
  have hdropped := decodeBits_dropped_le hw s.bitq
  have hdepth := t.depth_lt_leaves
  have hleaves := (Tree.leaves_bounds hw).2
  have hbound : (decodeBits t s.bitq).2 ≤ 254 := by omega
  rw [htree, TreeReg.decodeSymbols, readReg, State.setDropped_dropCount, word_toNat_ofNat (by omega)]
  exact hbound

/-! The round trip (R154). -/

/-- Settles O25: ENCODE leaves on an empty BITQ exactly the codes of SYMQ, which decode to it with nothing dropped. -/
theorem encodeThenDecodeRestoresTheSymbols : Obligations.EncodeThenDecodeRestoresTheSymbols := by
  constructor
  · intro t syms hw hleaves
    exact ⟨_, encodeBits_of_leaves hleaves, decodeBits_encodeBits hw (encodeBits_of_leaves hleaves)⟩
  · intro p s u t hinv he htree hbitq hrun hu
    have hw := hinv.loaded_wellFormed htree
    obtain ⟨-, ⟨hsymq, -⟩, -⟩ := hinv
    obtain ⟨e, hencode, -, rfl⟩ := committed_of_runs he hrun hu
    rw [htree] at hencode
    have hout : s.tree.decodeSymbols (s.bitq ++ e) = (s.symq, 0) := by
      rw [htree, hbitq]
      exact decodeBits_encodeBits hw hencode
    have hdecode := runs_decode (p := p) (s := (s.setBitq (s.bitq ++ e)).setSymq []) he hout (by simpa using hsymq)
    have hback : { s with symq := [] ++ s.symq, bitq := [], dropCount := 0, dangling := false } =
        { s with dropCount := 0, dangling := false } := by
      rw [List.nil_append, ← hbitq]
    exact hback ▸ hdecode

end Sys2Proof.Machine
end

section
/-! PROOF. The pack family (44_pack.md): where PACK puts each bit, what UNPACK reads back, and the final valid count. -/

namespace Sys2Proof.Machine

/-! The packed bytes (R170). -/

/-- R170: the final valid count of a bit list that is not empty counts the bits in its last byte. -/
theorem packBits_final_of_ne_nil {bits : List Bit} (h : bits ≠ []) : (packBits bits).2 = (bits.length - 1) % 8 + 1 :=
  if_neg (List.length_eq_zero_iff.not.mpr h)

/-- R170: only an empty bit list packs to no bytes. -/
theorem packBits_ne_nil {bits : List Bit} (h : bits ≠ []) : (packBits bits).1 ≠ [] := by
  have hbits := List.length_pos_iff.mpr h
  rw [← List.length_pos_iff, packBits_length]
  omega

/-- R170: the last packed byte holds the final group of eight. -/
theorem packBits_getLastD {bits : List Bit} (h : bits ≠ []) :
    (packBits bits).1.getLastD 0 = packByte bits ((bits.length + 7) / 8 - 1) := by
  have hbits := List.length_pos_iff.mpr h
  rw [← packBits_getD bits _ (by omega), ← packBits_length, List.getLastD_eq_getLast?, List.getLast?_eq_getElem?,
    List.getD_eq_getElem?_getD]

/-- R170: a bit position of a packed byte that lies past the stream's end is 0. -/
theorem packByte_padding {bits : List Bit} {j k : Nat} (h : bits.length ≤ 8 * j + k) : (packByte bits j).getLsbD k = false := by
  by_cases hk : k < 8
  · rw [packByte_getLsbD bits j k hk, List.getD_eq_default _ _ h]
  · exact BitVec.getLsbD_of_ge _ _ (not_lt.mp hk)

/-- R170: the positions of the last byte at or above the final valid count are padding. -/
theorem packBits_last_padding (bits : List Bit) {k : Nat} (hk : (packBits bits).2 ≤ k) :
    ((packBits bits).1.getLastD 0).getLsbD k = false := by
  by_cases h : bits = []
  · subst h
    exact BitVec.getLsbD_zero
  · have hbits := List.length_pos_iff.mpr h
    rw [packBits_final_of_ne_nil h] at hk
    rw [packBits_getLastD h]
    exact packByte_padding (by omega)

/-- R176: the byte count and the final valid count give the number of packed bits back. -/
theorem packBits_bit_count {bits : List Bit} (h : bits ≠ []) :
    8 * (packBits bits).1.length - (8 - (packBits bits).2) = bits.length := by
  have hbits := List.length_pos_iff.mpr h
  rw [packBits_length, packBits_final_of_ne_nil h]
  omega

/-- Settles O26: the byte that holds a bit is the weighted sum of its group of eight, with 0 past the stream's end. -/
theorem packPlacesBitsLeastSignificantFirst : Obligations.PackPlacesBitsLeastSignificantFirst := fun bits =>
  ⟨packBits_length bits, rfl, fun i hi => streamBit_packBits bits i hi, fun _ => packBits_last_padding bits⟩

/-! The unpacked bits (R172). -/

/-- R172: no bytes unpack to no bits under the final valid count 8, and to nothing under any other. -/
theorem unpackBits_nil (f : Nat) : unpackBits [] f = if f = 8 then some [] else none := rfl

/-- R172: bytes unpack to their stream bits, eight from each byte but the last and `f` from the last. -/
theorem exists_unpackBits_of_ne_nil {bytes : List Byte} (h : bytes ≠ []) (f : Nat) :
    ∃ r, unpackBits bytes f = some r ∧ r.length = 8 * (bytes.length - 1) + f ∧ ∀ i < r.length, r.getD i false = streamBit bytes i := by
  refine ⟨(List.range (8 * (bytes.length - 1) + f)).map (streamBit bytes), if_neg (List.length_eq_zero_iff.not.mpr h), by simp,
    fun i hi => ?_⟩
  rw [List.getD_eq_getElem _ _ hi, List.getElem_map, List.getElem_range]

/-! PACK, UNPACK and SET_FINAL (R171, R173, R174). -/

/-- 10_state.md R44: FINAL reads a FINAL_VALID of 1..8. -/
theorem readReg_final {s : State} (h : s.FinalInv) : (readReg 0x10 s).toNat = s.finalValid := State.finalReg_toNat h

section Pack
variable {p : Params} {s : State}

/-- R171: with room in BYTEQ, PACK moves BITQ there as bytes and records their final valid count. -/
theorem runs_pack (he : s.err = false) (hroom : s.byteq.length + (s.bitq.length + 7) / 8 ≤ p.byteqCap) :
    Runs p .pack s { s with byteq := s.byteq ++ (packBits s.bitq).1, bitq := [], finalValid := (packBits s.bitq).2 } :=
  runs_of_no_error he ⟨by rwa [packBits_length], rfl⟩

/-- R171: with too little room in BYTEQ, PACK fails with `Overflow`. -/
theorem runs_pack_overflow (he : s.err = false) (hfull : p.byteqCap < s.byteq.length + (s.bitq.length + 7) / 8) :
    Runs p .pack s (s.failedWith 0x0C 0x40) := by
  refine runs_of_raised he .overflow ?_
  simp [ruleAt, packRule, require, packBits_length, hfull.not_ge]

/-- R173: with room in BITQ, UNPACK moves the unpacked bits there. -/
theorem runs_unpack (he : s.err = false) {r : List Bit} (hr : unpackBits s.byteq s.finalValid = some r)
    (hroom : s.bitq.length + r.length ≤ p.bitqCap) : Runs p .unpack s { s with bitq := s.bitq ++ r, byteq := [] } :=
  runs_of_no_error he ⟨r, hr, hroom, rfl⟩

/-- R173: with too little room in BITQ, UNPACK fails with `Overflow`. -/
theorem runs_unpack_overflow (he : s.err = false) {r : List Bit} (hr : unpackBits s.byteq s.finalValid = some r)
    (hfull : p.bitqCap < s.bitq.length + r.length) : Runs p .unpack s (s.failedWith 0x0C 0x41) := by
  refine runs_of_raised he .overflow ?_
  simp [ruleAt, unpackRule, hr, require, hfull.not_ge]

/-- R173: bytes that do not unpack make UNPACK fail with `UnexpectedEof`, whatever room there is. -/
theorem runs_unpack_eof (he : s.err = false) (hr : unpackBits s.byteq s.finalValid = none) :
    Runs p .unpack s (s.failedWith 0x09 0x41) := by
  refine runs_of_raised he .unexpectedEof ?_
  simp [ruleAt, unpackRule, hr]

end Pack

/-- Settles O27: PACK commits the packed bytes, whose final valid count FINAL can show, or finds too little room. -/
theorem packDrainsTheBits : Obligations.PackDrainsTheBits := by
  refine ⟨takesNoOperand_of_mem (i := .pack) (by decide), fun p s he => ⟨fun hroom => ?room, runs_pack_overflow he⟩⟩
  refine ⟨_, runs_pack he hroom, rfl, readReg_final (packBits_final_bounds s.bitq), by simp, fun hbits => ?_⟩
  simp [packBits_ne_nil hbits]

/-- Settles O28: no bytes, by the final valid count, and bytes, by the room for their stream bits. -/
theorem unpackDrainsTheBytes : Obligations.UnpackDrainsTheBytes := by
  refine ⟨takesNoOperand_of_mem (i := .unpack) (by decide), fun p s he => ⟨?noBytes, ?eof, fun hbytes => ?bytes⟩⟩
  case noBytes =>
    intro hbyteq hfinal hroom
    have hr : unpackBits s.byteq s.finalValid = some [] := by rw [hbyteq, unpackBits_nil, if_pos hfinal]
    have hsame : { s with bitq := s.bitq ++ [], byteq := [] } = s := by rw [List.append_nil, ← hbyteq]
    have hrun := runs_unpack he hr hroom
    rw [hsame] at hrun
    exact ⟨hrun, by simp [hbyteq]⟩
  case eof =>
    intro hbyteq hfinal
    exact runs_unpack_eof he (by rw [hbyteq, unpackBits_nil, if_neg hfinal])
  case bytes =>
    obtain ⟨r, hr, hlength, hbits⟩ := exists_unpackBits_of_ne_nil hbytes s.finalValid
    rw [← hlength]
    exact ⟨fun hroom => ⟨r, _, rfl, hbits, runs_unpack he hr hroom, rfl, by simp, fun hne => by simp [hne]⟩, runs_unpack_overflow he hr⟩

/-- Settles O29: the operand check admits 1..8, which FINAL can show, and raises on every other operand. -/
theorem setFinalSetsTheFinalCount : Obligations.SetFinalSetsTheFinalCount := by
  refine fun p s v => ⟨decodeInstr_encode (.setFinal v), fun he => ⟨fun hmin hmax => ?inRange, fun hrange => ?outOfRange⟩⟩
  case inRange =>
    exact ⟨s.setFinalValid v.toNat, runs_of_no_error he ⟨⟨hmin, hmax⟩, rfl⟩, rfl, readReg_final ⟨hmin, hmax⟩⟩
  case outOfRange =>
    exact runs_of_raised he .invalidOperand (except_bind_eq_error.mpr (.inl (finalOperand_eq_error.mpr ⟨hrange, rfl⟩)))

/-! The round trip (R175) and the count of packed bits (R176). -/

/-- Settles O30: PACK leaves on an empty BYTEQ exactly the packed bits, and with their final valid count they unpack to the bits. -/
theorem packThenUnpackRestoresTheBits : Obligations.PackThenUnpackRestoresTheBits := by
  refine ⟨unpackBits_packBits, ?_⟩
  intro p s u w he hbyteq hpack hu hsameBytes hsameFinal hbitq hw hroom
  obtain ⟨-, rfl⟩ := committed_of_runs he hpack hu
  have hbytes : w.byteq = (packBits s.bitq).1 := by simpa [hbyteq] using hsameBytes
  have hr : unpackBits w.byteq w.finalValid = some s.bitq := by
    rw [hbytes, hsameFinal]
    exact unpackBits_packBits s.bitq
  simpa [hbitq] using runs_unpack (p := p) hw hr (by simpa [hbitq] using hroom)

/-- Settles O31: the bytes a committed PACK appends are the packed bits, whose counts give the bit count. -/
theorem packedBitCountIsRecovered : Obligations.PackedBitCountIsRecovered := by
  intro p s u he hpack hu
  obtain ⟨-, rfl⟩ := committed_of_runs he hpack hu
  exact ⟨(packBits s.bitq).1, rfl, packBits_length s.bitq, fun hn => packBits_bit_count (List.length_pos_iff.mp hn)⟩

end Sys2Proof.Machine
end

section
/-! PROOF. The exception family (60_exceptions.md): a failing step enters one of the block's own errors and changes nothing else, the ERR
gate discards every command but the exempt three, and of those each commits its rule exactly with operand 0. -/

namespace Sys2Proof

/-- R203: the commands with an exempt opcode, one case per row of the opcode table. -/
theorem Instr.opcode_toNat_le_two_iff (i : Instr) : i.opcode.toNat ≤ 2 ↔ i = .nop ∨ i = .softReset ∨ i = .clearErr := by
  cases i <;> simp [Instr.opcode]

end Sys2Proof

namespace Sys2Proof.Machine

theorem exempt_opcode_cases {opc : Byte} (h : opc.toNat ≤ 2) : opc = 0x00 ∨ opc = 0x01 ∨ opc = 0x02 := by
  simpa [exempt, or_assoc] using (exempt_iff opc).mpr h

/-- 30_encoding.md R81: no exempt opcode takes an operand. -/
theorem exempt_mem_noOperandOpcodes {opc : Byte} (h : opc.toNat ≤ 2) : opc ∈ noOperandOpcodes := by
  obtain rfl | rfl | rfl := exempt_opcode_cases h <;> decide

/-! The ERR gate (R203). -/

theorem gateOpen_eq_false_iff {opc : Byte} {s : State} : gateOpen opc s = false ↔ s.err = true ∧ 2 < opc.toNat := by
  rw [← Bool.not_eq_true, gateOpen_iff, not_or, Bool.not_eq_false, Nat.not_le]

/-- R203: behind a closed gate a word is discarded, whether or not it spells a command. -/
theorem executeAt_gated {p : Params} {w : Word} {s : State} (hg : gateOpen (opcOf w) s = false) : executeAt p w s = .next s := by
  unfold executeAt
  cases hd : decodeInstr w with
  | none => exact runRule_gated hg
  | some i => exact runRule_gated ((decodeInstr_eq_some hd).1 ▸ hg)

/-- Settles O33: with ERR = 1 the gate is closed on every other opcode, for a word as for a command. -/
theorem errGateDiscardsEveryOtherCommand : Obligations.ErrGateDiscardsEveryOtherCommand := by
  intro p s herr
  constructor
  · intro hb hopc
    exact steps_iff.mpr (stepAt_of_executeAt hb (executeAt_gated (gateOpen_eq_false_iff.mpr ⟨herr, hopc⟩)))
  · intro i hnop hreset hclear
    have hopc : 2 < i.opcode.toNat := by
      rw [← Nat.not_le, i.opcode_toNat_le_two_iff]
      simp [hnop, hreset, hclear]
    exact runs_iff.mpr (runRule_gated (gateOpen_eq_false_iff.mpr ⟨herr, hopc⟩))

/-! The exempt opcodes (R206): with an operand the step fails whatever ERR is, with operand 0 it commits. -/

/-- R206: an exempt opcode with an operand fails with `IllegalCommand`, on either side of the gate. -/
theorem stepAt_exempt_operand_fails {p : Params} {s : State} (hb : s.busy = true) (hopc : (opcOf s.pend).toNat ≤ 2)
    (hopd : opdOf s.pend ≠ 0) : stepAt p s = .next (fail .illegalCommand (opcOf s.pend) s).release := by
  have hillegal : decodeInstr s.pend = none := by
    rw [← encodeWord_opcOf_opdOf s.pend]
    exact decodeInstr_eq_none_of_operand (exempt_mem_noOperandOpcodes hopc) hopd
  exact stepAt_illegal_fails hb hillegal (gateOpen_iff.mpr (.inr hopc))

/-- R206: an exempt command's opcode with operand 0 steps to what the command commits. -/
theorem steps_of_exempt {p : Params} {i : Instr} {s u : State} (hi : i.opcode.toNat ≤ 2) (hb : s.busy = true)
    (hopc : opcOf s.pend = i.opcode) (hopd : opdOf s.pend = 0) (hc : Committed p i s u) : Steps p s u.release := by
  have hd : decodeInstr s.pend = some i := by
    rw [← encodeWord_opcOf_opdOf s.pend, hopc, hopd]
    exact decodeInstr_encodeWord_zero (exempt_mem_noOperandOpcodes hi)
  exact steps_of_runs hb hd (runs_of_exempt hi hc)

/-- R206: a failure with ERR = 1 overwrites ERRCODE and ERR_OPC alone. -/
theorem fail_of_error {s : State} (h : s.err = true) (e : ErrorKind) (opc : Byte) :
    fail e opc s = { s with errCode := e.code, errOpc := opc } := by
  rw [fail, ← h]

/-- Settles O34: the nested failure, and with operand 0 the commit of each of the three exempt commands. -/
theorem nestedFailureOverwritesTheCode : Obligations.NestedFailureOverwritesTheCode := by
  intro p s hb herr hopc
  refine ⟨fun hopd => ?_, fun hopd hnop => ?_, fun hopd hother => ?_⟩
  · have hstep := stepAt_exempt_operand_fails (p := p) hb hopc hopd
    rw [fail_of_error herr] at hstep
    exact steps_iff.mpr hstep
  · exact steps_of_exempt (i := .nop) (by decide) hb hnop hopd rfl
  · obtain hnop | hreset | hclear := exempt_opcode_cases hopc
    · exact absurd hnop hother
    · exact ⟨_, steps_of_exempt (i := .softReset) (by decide) hb hreset hopd rfl, rfl, rfl, rfl, rfl⟩
    · exact ⟨_, steps_of_exempt (i := .clearErr) (by decide) hb hclear hopd rfl, rfl, rfl, rfl, rfl⟩

/-! Error entry (R201). -/

/-- R100: no commit records an error. The cases stand together by what their rules check. -/
theorem Committed.no_error {p : Params} {i : Instr} {s u : State} (hc : Committed p i s u) (hs : s.err = false) : u.err = false := by
  cases i with
  | nop | softReset | clearErr | treeClear =>
    obtain rfl := hc
    simp [hs]
  | pushSym v | pushBit v | pushByte v | pushLeaf v | treeStore =>
    obtain ⟨-, -, rfl⟩ := hc
    exact hs
  | popSym | popBit | popByte | popLeaf =>
    obtain ⟨-, -, -, rfl⟩ := hc
    exact hs
  | treeLoad =>
    obtain ⟨-, -, -, -, rfl⟩ := hc
    exact hs
  | encode | unpack =>
    obtain ⟨-, -, -, rfl⟩ := hc
    exact hs
  | decode | pack | setFinal v =>
    obtain ⟨-, rfl⟩ := hc
    exact hs

/-- R200: the codes of the kinds the block raises. -/
theorem raisedKinds_map_code : raisedKinds.map ErrorKind.code = [0x01, 0x03, 0x04, 0x09, 0x0A, 0x0B, 0x0C] := rfl

/-- R201, R206: a step that fails, fresh or nested, enters an error of the block's own and ends. -/
theorem stepAt_failure {p : Params} {s t : State} (h : stepAt p s = .next t) (ht : t.err = true)
    (hfails : s.err = false ∨ (opcOf s.pend).toNat ≤ 2 ∧ opdOf s.pend ≠ 0) :
    ∃ e ∈ raisedKinds, t = (fail e (opcOf s.pend) s).release := by
  obtain hclear | ⟨hopc, hopd⟩ := hfails
  · obtain ⟨u, rfl, rfl | ⟨e, he, rfl⟩ | ⟨i, -, hc⟩⟩ := stepAt_outcome h
    · simp [hclear] at ht
    · exact ⟨e, he, rfl⟩
    · simp [hc.no_error hclear] at ht
  · rw [stepAt_exempt_operand_fails (stepAt_cases h).1 hopc hopd] at h
    injection h with h
    exact ⟨.illegalCommand, by decide, h.symm⟩

/-- Settles O32: a failing step is an error entry, whose code is that of a kind the block raises. -/
theorem failureChangesOnlyTheErrorFields : Obligations.FailureChangesOnlyTheErrorFields := by
  intro p s t h ht hfails
  obtain ⟨e, he, rfl⟩ := stepAt_failure (steps_iff.mp h) ht hfails
  exact ⟨rfl, raisedKinds_map_code ▸ List.mem_map_of_mem he⟩

end Sys2Proof.Machine
end

section
/-! PROOF. The reset and hazard family (70_reset_and_hazards.md): a busy block's step always completes, hardware reset leaves the reset
state, and host accesses while a command is pending change nothing but OVERRUN, so the registers keep what they read. -/

namespace Sys2Proof.Machine

/-! The engine step (R239, R241). -/

/-- Settles O6: `Execute` is total, and the step that runs it releases BUSY. -/
theorem busyStepAlwaysCompletes : Obligations.BusyStepAlwaysCompletes := by
  intro p s hb
  obtain ⟨u, hu⟩ := executeAt_next p s.pend s
  exact ⟨u.release, steps_iff.mpr (stepAt_of_executeAt hb hu), u.release_busy⟩

/-- R241: no step answers from an idle block. -/
theorem stepAt_ne_next_of_idle {s : State} (hb : s.busy = false) (p : Params) (t : State) : stepAt p s ≠ .next t := by
  rw [stepAt_idle hb]
  exact nofun

/-- Settles O5: the step runs the decoded command and releases BUSY; idle, no instance steps, and `step` is one. -/
theorem stepRunsTheDecodedCommand : Obligations.StepRunsTheDecodedCommand := fun p s =>
  ⟨fun hb _ _ hd hruns => steps_of_runs hb hd hruns,
    fun hb t => ⟨stepAt_ne_next_of_idle hb p t, step_eq_stepAt s ▸ stepAt_ne_next_of_idle hb blockParams t⟩⟩

/-! Hardware reset (R230, R231). -/

/-- R230: hardware reset answers the reset state from every state. -/
theorem stepEvent_hardReset (p : Params) (s : State) : stepEvent p .hardReset s = .next .reset := rfl

/-- Settles O39: the reset state, element by element. -/
theorem hardwareResetSetsEveryElement : Obligations.HardwareResetSetsEveryElement := by
  intro p s
  rw [stepEvent_hardReset, State.reset]

/-- R231: every register but STATUS and FINAL reads 0 after reset. -/
theorem readReg_reset {off : Nat} (hstatus : off ≠ 0x04) (hfinal : off ≠ 0x10) : readReg off State.reset = 0 := by
  unfold readReg
  split
  case h_1 => exact absurd rfl hstatus
  case h_4 => exact absurd rfl hfinal
  all_goals rfl

/-- Settles O38: the two nonzero registers are literals of the reset state. -/
theorem registersAfterReset : Obligations.RegistersAfterReset :=
  ⟨statusBitsAreViews.2, rfl, fun _ hstatus hfinal => readReg_reset hstatus hfinal⟩

/-! Reads while busy (R234): PEND, BUSY and OVERRUN show nowhere but in STATUS. -/

/-- R42 to R48: no register but STATUS shows PEND, BUSY or OVERRUN. -/
theorem readReg_pending {off : Nat} (hoff : off ≠ 0x04) (s : State) (w : Word) (b o : Bool) :
    readReg off { s with pend := w, busy := b, overrun := o } = readReg off s := by
  unfold readReg
  split
  case h_1 => exact absurd rfl hoff
  all_goals rfl

/-- R41: with a command pending STATUS gains BUSY, and OVERRUN where a write was discarded; the other bits stand as they stood. -/
theorem State.statusReg_pending {s : State} {o : Bool} (ho : s.overrun = true → o = true) (w : Word) :
    { s with pend := w, busy := true, overrun := o }.statusReg =
      s.statusReg ||| 0x00000001 ||| (if o then 0x00000010 else 0) := by
  have hbusy : (0x00000001 : Word) = flagBit true 0 := rfl
  have hoverrun : (if o then (0x00000010 : Word) else 0) = flagBit o 4 := rfl
  refine BitVec.eq_of_getLsbD_eq fun k _ => ?_
  rw [hbusy, hoverrun, BitVec.getLsbD_or, BitVec.getLsbD_or, flagBit_getLsbD _ (by decide), flagBit_getLsbD _ (by decide),
    State.statusReg_getLsbD, State.statusReg_getLsbD]
  by_cases hk0 : k = 0
  · simp [hk0]
  by_cases hk4 : k = 4
  · simp [hk4, Bool.or_eq_right_iff_imp.mpr ho]
  · simp [hk0, hk4, State.treeValid]

/-! Host accesses while busy (R233). -/

/-- R260: a write to CMD. -/
def Event.isCmdWrite : Event → Bool
  | .write a _ => decide (a = wordAccess 0x00)
  | _ => false

theorem Event.isCmdWrite_iff {e : Event} : e.isCmdWrite = true ↔ ∃ v, e = .write (wordAccess 0x00) v := by
  cases e <;> simp [Event.isCmdWrite]

theorem any_isCmdWrite_iff {es : List Event} :
    es.any Event.isCmdWrite = true ↔ ∃ v, .write (wordAccess 0x00) v ∈ es := by
  simp only [List.any_eq_true, Event.isCmdWrite_iff]
  exact ⟨fun ⟨_, he, v, hv⟩ => ⟨v, hv ▸ he⟩, fun ⟨v, hv⟩ => ⟨_, hv, v, rfl⟩⟩

/-- R61: the one admitted access at offset 0 is the 32-bit one. -/
theorem Access.eq_wordAccess {a : Access} (h : a.admitted = true) : a = wordAccess a.off := by
  obtain ⟨hwidth, -, -⟩ := a.admitted_iff.mp h
  rw [wordAccess, ← hwidth]

/-- R233: with a command pending, a host access changes nothing, but that a CMD write is discarded and sets OVERRUN. -/
theorem stepEvent_of_busy {p : Params} {e : Event} {s u : State} (h : stepEvent p e s = .next u) (hb : s.busy = true)
    (he : e ≠ .engine ∧ e ≠ .hardReset) : u = { s with overrun := s.overrun || e.isCmdWrite } := by
  cases e with
  | engine => exact absurd rfl he.1
  | hardReset => exact absurd rfl he.2
  | read a => simp [stepEvent_read_eq_next h, Event.isCmdWrite]
  | write a v =>
    obtain ⟨hadmitted, rfl⟩ := stepEvent_write_eq_next h
    by_cases hoff : a.off = 0x00
    · have hcmd : a = wordAccess 0x00 := hoff ▸ Access.eq_wordAccess hadmitted
      rw [hoff, writeReg_cmd_of_busy hb]
      simp [State.overrunSet, Event.isCmdWrite, hcmd]
    · have hother : a ≠ wordAccess 0x00 := fun ha => hoff (ha ▸ rfl)
      simp [writeReg_other hoff, Event.isCmdWrite, hother]

/-- R233: along host accesses alone a pending command stays pending, and OVERRUN records whether a CMD write was discarded. -/
theorem runEvents_of_busy {p : Params} {es : List Event} {s t : State} (h : runEvents p es s = .next t) (hb : s.busy = true)
    (hes : ∀ e ∈ es, e ≠ .engine ∧ e ≠ .hardReset) :
    t = { s with overrun := s.overrun || es.any Event.isCmdWrite } := by
  induction es generalizing s with
  | nil =>
    cases h
    simp
  | cons e es ih =>
    obtain ⟨he, hrest⟩ := List.forall_mem_cons.mp hes
    obtain ⟨u, hu, hrun⟩ := runEvents_cons_eq_next h
    obtain rfl := stepEvent_of_busy hu hb he
    rw [ih hrun hb hrest, List.any_cons, Bool.or_assoc]

/-- Settles O47: the accepted write latches the word, and from there the run changes OVERRUN alone. -/
theorem readsWhileBusySeeTheStateBefore : Obligations.ReadsWhileBusySeeTheStateBefore := by
  intro p s u t w es hs hwrite hes hrun
  have hlatch : u = s.latch w := by
    rw [hostWrite_admitted (by decide)] at hwrite
    injection hwrite with hu
    rw [← hu]
    exact writeReg_cmd_of_idle hs w
  obtain rfl := hlatch
  obtain rfl := runEvents_of_busy hrun (s.latch_busy w) hes
  refine ⟨rfl, ?overrun, fun off hoff => readReg_pending hoff s w true _, State.statusReg_pending (s := s) (fun ho => ?sticky) w⟩
  case overrun => simp only [State.latch_overrun, Bool.or_eq_true, any_isCmdWrite_iff]
  case sticky => rw [State.latch_overrun, ho, Bool.true_or]

end Sys2Proof.Machine
end

section
/-! PROOF. The host interface family (80_host_interface.md): what the host's accesses and the issue protocol do to the block, and the
host-side reference: folding, the tree builder, the container, and compress and decompress through the window. -/

namespace Sys2Proof.Machine

/-! Events and the invariant (R260). -/

/-- The command latch is no part of the invariant. -/
theorem State.Inv.latch {p : Params} {s : State} (h : s.Inv p) (w : Word) : (s.latch w).Inv p := h

/-- OVERRUN is no part of the invariant. -/
theorem State.Inv.overrunSet {p : Params} {s : State} (h : s.Inv p) : s.overrunSet.Inv p := h

/-- R66, R260: a register write latches a word, sets OVERRUN, or is ignored. -/
theorem State.Inv.writeReg {p : Params} {s : State} (h : s.Inv p) (off : Nat) (v : Word) : (writeReg off v s).Inv p := by
  by_cases hoff : off = 0x00
  · subst hoff
    cases hb : s.busy with
    | false => exact writeReg_cmd_of_idle hb v ▸ h.latch v
    | true => exact writeReg_cmd_of_busy hb v ▸ h.overrunSet
  · rwa [writeReg_other hoff]

theorem stepEvent_inv {p : Params} {e : Event} {s t : State} (h : s.Inv p) (hst : stepEvent p e s = .next t) : t.Inv p := by
  cases e with
  | engine => exact stepAt_inv h hst
  | write a v =>
    obtain ⟨-, rfl⟩ := stepEvent_write_eq_next hst
    exact h.writeReg a.off v
  | read a => exact stepEvent_read_eq_next hst ▸ h
  | hardReset =>
    cases hst
    exact State.reset_inv h.1

/-- Settles O42, by induction on the run: each event keeps the invariant. -/
theorem everyInterleavingKeepsTheInvariant : Obligations.EveryInterleavingKeepsTheInvariant := by
  intro p es
  induction es with
  | nil =>
    intro s t h hrun
    cases hrun
    exact h
  | cons e es ih =>
    intro s t h hrun
    obtain ⟨u, hu, hrest⟩ := runEvents_cons_eq_next hrun
    exact ih u t (stepEvent_inv h hu) hrest

/-! Host accesses and the issue protocol (R260, R261). -/

theorem wordAccess_admitted {off : Nat} (halign : off % 4 = 0) (hwindow : off < 0x40) : (wordAccess off).admitted = true :=
  (Access.admitted_iff _).mpr ⟨rfl, halign, hwindow⟩

/-- R66: an admitted read answers the state it read. -/
theorem stepEvent_read_admitted {a : Access} (h : a.admitted = true) (p : Params) (s : State) :
    stepEvent p (.read a) s = .next s := by
  rw [stepEvent, hostRead_admitted h, Except.map, ofAccess]

/-- Settles O45: a CMD write by BUSY, a write to another register, and a read. -/
theorem hostWritesLatchOrOverrun : Obligations.HostWritesLatchOrOverrun := by
  intro p s v
  have hcmd : (wordAccess 0x00).admitted = true := by decide
  refine ⟨fun hb => ?idle, fun hb => ?busy, fun off halign hwindow => ?window⟩
  case idle => exact (hostWrite_admitted hcmd v s).trans (congrArg Except.ok (writeReg_cmd_of_idle hb v))
  case busy => exact (hostWrite_admitted hcmd v s).trans (congrArg Except.ok (writeReg_cmd_of_busy hb v))
  case window =>
    have ha := wordAccess_admitted halign hwindow
    exact ⟨fun hoff => (hostWrite_admitted ha v s).trans (congrArg Except.ok (writeReg_other hoff v s)), hostRead_admitted ha s,
      stepEvent_read_admitted ha p s⟩

/-- R239, R241: the engine's step with a word latched answers, and it is the wait's end. -/
theorem steps_awaitIdle_of_busy {s : State} (hb : s.busy = true) (p : Params) : Steps p s (awaitIdle p s) := by
  obtain ⟨t, ht, -⟩ := busyStepAlwaysCompletes p s hb
  rwa [awaitIdle_of_step (steps_iff.mp ht)]

/-- Settles O49: on an idle block the first wait is empty, and the second is the step of the word just latched. -/
theorem issueIsOneWriteAndOneStep : Obligations.IssueIsOneWriteAndOneStep := by
  intro p s w hs
  rw [issue_eq, awaitIdle_of_idle hs]
  exact ⟨steps_awaitIdle_of_busy (s.latch_busy w) p, awaitIdle_idle p _⟩

/-! Case folding (R264). -/

theorem foldByte_toNat_of_letter {b : Byte} (hmin : 0x61 ≤ b.toNat) (hmax : b.toNat ≤ 0x7A) :
    (foldByte b).toNat = b.toNat - 0x20 := by
  rw [foldByte, if_pos ⟨hmin, hmax⟩]
  bv_omega

theorem foldByte_of_no_letter {b : Byte} (h : b.toNat < 0x61 ∨ 0x7A < b.toNat) : foldByte b = b :=
  if_neg (by omega)

theorem foldText_of_fold {hp : HostParams} (h : hp.foldCase = true) (text : List Byte) : foldText hp text = text.map foldByte :=
  if_pos h

theorem foldText_length (hp : HostParams) (text : List Byte) : (foldText hp text).length = text.length := by
  unfold foldText
  split <;> simp

/-- Settles O52: folding acts on each byte by itself, by the letter range. -/
theorem foldingLowersSmallLettersOnly : Obligations.FoldingLowersSmallLettersOnly := by
  refine fun hp text => ⟨fun hfold => if_neg (by simp [hfold]), fun hfold => ⟨foldText_length hp text, fun i hi => ?_⟩⟩
  have hget : (foldText hp text).getD i 0 = foldByte (text.getD i 0) := by
    rw [foldText_of_fold hfold]
    simp [List.getD_eq_getElem?_getD, hi]
  rw [hget]
  exact ⟨foldByte_toNat_of_letter, foldByte_of_no_letter⟩

/-! The container (R272 to R279). -/

theorem byte_toNat_ofNat {n : Nat} (h : n < 256) : (BitVec.ofNat 8 n : Byte).toNat = n := by
  rw [BitVec.toNat_ofNat, Nat.mod_eq_of_lt (by omega)]

/-- R278: what `parseContainer` answers, and what its checks have established then: the leaf count, the tag, the length, and the final
valid count. -/
theorem parseContainer_eq_ok_iff {m : Magic} {bytes : List Byte} {c : Container} :
    parseContainer m bytes = .ok c ↔
      ∃ n, 2 ≤ n ∧ (bytes.getD 4 0).toNat + 1 = n ∧ bytes.take 4 = magicBytes m ∧ 6 + n < bytes.length ∧
        (1 ≤ (bytes.getD (5 + n) 0).toNat ∧ (bytes.getD (5 + n) 0).toNat ≤ 8) ∧
        c = { count := n, leaves := (bytes.drop 5).take n, final := (bytes.getD (5 + n) 0).toNat, payload := bytes.drop (6 + n) } := by
  simp only [parseContainer]
  constructor
  · intro h
    split_ifs at h with hmagic _ hk hlen hf hpayload
    injection h with h
    exact ⟨_, by omega, rfl, not_not.mp (not_or.mp hmagic).2, by omega, by omega, h.symm⟩
  · rintro ⟨n, hmin, rfl, hmagic, hlen, hf, rfl⟩
    rw [if_neg (not_or.mpr ⟨by omega, not_not.mpr hmagic⟩), if_neg (by omega), if_neg (by omega), if_neg (by omega),
      if_neg (by omega), if_neg (by omega)]

section Layout
variable (m : Magic) (c : Container)

/-- R272: the layout of a container's bytes, byte by byte up to the leaves. -/
theorem serialize_eq :
    serialize m c =
      m.m0 :: m.m1 :: m.m2 :: m.m3 :: BitVec.ofNat 8 (c.count - 1) :: (c.leaves ++ BitVec.ofNat 8 c.final :: c.payload) := by
  simp [serialize, magicBytes]

theorem serialize_length : (serialize m c).length = 6 + c.leaves.length + c.payload.length := by
  simp only [serialize_eq, List.length_cons, List.length_append]
  omega

theorem serialize_take_magic : (serialize m c).take 4 = magicBytes m := by
  rw [serialize_eq]
  rfl

theorem serialize_getD_count : (serialize m c).getD 4 0 = BitVec.ofNat 8 (c.count - 1) := by
  rw [serialize_eq]
  rfl

theorem serialize_drop_leaves : (serialize m c).drop 5 = c.leaves ++ BitVec.ofNat 8 c.final :: c.payload := by
  rw [serialize_eq]
  rfl

theorem serialize_getD_final : (serialize m c).getD (5 + c.leaves.length) 0 = BitVec.ofNat 8 c.final := by
  rw [List.getD_eq_getElem?_getD, ← List.getElem?_drop, serialize_drop_leaves]
  simp

theorem serialize_drop_payload : (serialize m c).drop (6 + c.leaves.length) = c.payload := by
  rw [show 6 + c.leaves.length = 5 + (c.leaves.length + 1) by omega, ← List.drop_drop, serialize_drop_leaves]
  simp

end Layout

/-- Settles O50: on the layout of a container each of R278's checks passes, and the fields read back. -/
theorem containerRoundTrips : Obligations.ContainerRoundTrips := by
  rintro m c ⟨⟨hmin, hmax⟩, hleaves, hfinal, hpayload⟩
  rw [minLeaves] at hmin
  rw [maxLeaves] at hmax
  have hcount : (BitVec.ofNat 8 (c.count - 1)).toNat + 1 = c.count := by
    rw [byte_toNat_ofNat (by omega)]
    omega
  have hf : (BitVec.ofNat 8 c.final).toNat = c.final := byte_toNat_ofNat (by omega)
  refine parseContainer_eq_ok_iff.mpr ⟨c.count, hmin, ?_⟩
  rw [serialize_getD_count, serialize_take_magic, serialize_length, serialize_drop_leaves, ← hleaves, serialize_getD_final,
    serialize_drop_payload, hf, List.take_left]
  exact ⟨hleaves ▸ hcount, rfl, by omega, hfinal, by rw [hleaves]⟩

/-- A list from position `i` on begins with its element there. -/
theorem drop_eq_getD_cons {bytes : List Byte} {i : Nat} (h : i < bytes.length) :
    bytes.drop i = bytes.getD i 0 :: bytes.drop (i + 1) := by
  rw [List.drop_eq_getElem_cons h, List.getD_eq_getElem _ _ h]

/-- R272: bytes that begin with the tag and hold at least `n + 6` bytes are laid out as a container with `n` leaves. -/
theorem bytes_layout {m : Magic} {bytes : List Byte} (hmagic : bytes.take 4 = magicBytes m) {n : Nat} (hlen : 6 + n ≤ bytes.length) :
    bytes = magicBytes m ++ [bytes.getD 4 0] ++ (bytes.drop 5).take n ++ [bytes.getD (5 + n) 0] ++ bytes.drop (6 + n) := by
  have hend : bytes.drop (5 + n) = bytes.getD (5 + n) 0 :: bytes.drop (6 + n) := by
    rw [drop_eq_getD_cons (by omega)]
    congr 2
    omega
  calc bytes
      = bytes.take 4 ++ bytes.drop 4 := (List.take_append_drop 4 bytes).symm
    _ = magicBytes m ++ (bytes.getD 4 0 :: bytes.drop 5) := by rw [hmagic, drop_eq_getD_cons (by omega)]
    _ = magicBytes m ++ (bytes.getD 4 0 :: ((bytes.drop 5).take n ++ bytes.drop (5 + n))) := by
      rw [← List.drop_drop, List.take_append_drop]
    _ = _ := by simp [hend]

/-- Settles O51: the checks give R279's requirements, and the fields are cut from the layout. -/
theorem parsedContainersSerializeBack : Obligations.ParsedContainersSerializeBack := by
  intro m bytes c h
  obtain ⟨n, hmin, hn, hmagic, hlen, hf, rfl⟩ := parseContainer_eq_ok_iff.mp h
  have hk := (bytes.getD 4 0).isLt
  constructor
  · refine ⟨⟨hmin, ?_⟩, ?_, hf, ?_⟩
    · simp only [maxLeaves]
      omega
    · simp only [List.length_take, List.length_drop]
      omega
    · simp only [List.length_drop]
      omega
  · have hcount : BitVec.ofNat 8 (n - 1) = bytes.getD 4 0 := by rw [← hn, Nat.add_sub_cancel, BitVec.ofNat_toNat, BitVec.setWidth_eq]
    have hfinal : BitVec.ofNat 8 (bytes.getD (5 + n) 0).toNat = bytes.getD (5 + n) 0 := by rw [BitVec.ofNat_toNat, BitVec.setWidth_eq]
    rw [serialize, hcount, hfinal, ← bytes_layout hmagic hlen.le]

/-! The seed symbols (R265 to R267). -/

theorem mem_firstSeen {xs : List Byte} {b : Byte} : b ∈ firstSeen xs ↔ b ∈ xs := by
  induction xs with
  | nil => simp [firstSeen]
  | cons x xs ih =>
    by_cases hb : b = x <;> simp [firstSeen, ih, hb]

theorem firstSeen_nodup (xs : List Byte) : (firstSeen xs).Nodup := by
  induction xs with
  | nil => simp [firstSeen]
  | cons x xs ih => simpa [firstSeen] using ih.filter _

theorem mem_ascending {xs : List Byte} {b : Byte} : b ∈ ascending xs ↔ b ∈ xs := by
  have hbyte : ∃ n < 256, BitVec.ofNat 8 n = b := ⟨b.toNat, b.isLt, by simp⟩
  simp [ascending, hbyte]

theorem ascending_nodup (xs : List Byte) : (ascending xs).Nodup := by
  refine List.Nodup.filter _ (List.nodup_range.map_on fun a ha b hb hab => ?_)
  rw [List.mem_range] at ha hb
  rw [← byte_toNat_ofNat ha, ← byte_toNat_ofNat hb, hab]

theorem mem_seedSymbols {order : SeedOrder} {xs : List Byte} {b : Byte} : b ∈ seedSymbols order xs ↔ b ∈ xs := by
  cases order with
  | ascending => exact mem_ascending
  | firstSeen => exact mem_firstSeen

theorem seedSymbols_nodup (order : SeedOrder) (xs : List Byte) : (seedSymbols order xs).Nodup := by
  cases order with
  | ascending => exact ascending_nodup xs
  | firstSeen => exact firstSeen_nodup xs

theorem seedEntries_length (order : SeedOrder) (xs : List Byte) : (seedEntries order xs).length = (seedSymbols order xs).length := by
  simp [seedEntries]

/-! The merge loop (R268, R269): what it keeps is the leaves of its entries, up to their order. -/

/-- The leaves of all the entries' trees. -/
def entryLeaves (es : List Entry) : List Byte := es.flatMap fun e => e.tree.leaves

theorem entryLeaves_perm {es es' : List Entry} (h : es.Perm es') : (entryLeaves es).Perm (entryLeaves es') := h.flatMap_right _

/-- R267: a seed entry is one leaf. -/
theorem entryLeaves_seedEntries (order : SeedOrder) (xs : List Byte) : entryLeaves (seedEntries order xs) = seedSymbols order xs := by
  simp only [entryLeaves, seedEntries, List.flatMap_map, Tree.leaves, ← List.map_eq_flatMap]
  exact List.zipIdx_map_fst 0 _

/-- R268: nothing is dequeued from an empty priority structure alone. -/
theorem dequeue_eq_none_iff {tie : TieOrder} {es : List Entry} : dequeue tie es = none ↔ es = [] := by
  cases es with
  | nil => simp [dequeue]
  | cons e es =>
    simp only [dequeue, reduceCtorEq, iff_false]
    split
    · simp
    · split <;> simp

/-- R268: dequeuing takes one entry out and keeps the others. -/
theorem dequeue_perm {tie : TieOrder} {es rest : List Entry} {m : Entry} (h : dequeue tie es = some (m, rest)) : es.Perm (m :: rest) := by
  induction es generalizing m rest with
  | nil => simp [dequeue] at h
  | cons e es ih =>
    simp only [dequeue] at h
    split at h
    next hnone =>
      obtain ⟨rfl, rfl⟩ := h
      rw [dequeue_eq_none_iff.mp hnone]
    next m' rest' hsome =>
      split at h
      · obtain ⟨rfl, rfl⟩ := h
        exact ((ih hsome).cons e).trans (.swap _ _ _)
      · obtain ⟨rfl, rfl⟩ := h
        exact (ih hsome).cons e

/-- R269: the entry a merge of two enqueues. -/
def mergedEntry (a b : Entry) (counter : Nat) : Entry :=
  { priority := a.priority + b.priority, counter := counter, tree := .node a.tree b.tree }

/-- R269: the loop's cases, with its bound not met: no entry, one entry, whose tree is the answer, or a merge of two. -/
theorem mergeEntries_cases (tie : TieOrder) (n counter : Nat) (es : List Entry) :
    (es = [] ∧ mergeEntries tie (n + 1) counter es = none) ∨
    (∃ a, es = [a] ∧ mergeEntries tie (n + 1) counter es = some a.tree) ∨
    (∃ a b rest, es.Perm (a :: b :: rest) ∧
      mergeEntries tie (n + 1) counter es = mergeEntries tie n (counter + 1) (mergedEntry a b counter :: rest)) := by
  cases ha : dequeue tie es with
  | none => exact .inl ⟨dequeue_eq_none_iff.mp ha, by rw [mergeEntries, ha]⟩
  | some r =>
    obtain ⟨a, rest⟩ := r
    have hperm := dequeue_perm ha
    cases hb : dequeue tie rest with
    | none =>
      rw [dequeue_eq_none_iff.mp hb] at hperm
      exact .inr (.inl ⟨a, List.perm_singleton.mp hperm, by simp only [mergeEntries, ha, hb]⟩)
    | some r' =>
      obtain ⟨b, rest'⟩ := r'
      exact .inr (.inr ⟨a, b, rest', hperm.trans ((dequeue_perm hb).cons a), by simp only [mergeEntries, ha, hb, mergedEntry]⟩)

/-- R269: a merge keeps the leaves. -/
theorem entryLeaves_mergedEntry (a b : Entry) (counter : Nat) (rest : List Entry) :
    entryLeaves (mergedEntry a b counter :: rest) = entryLeaves (a :: b :: rest) := by
  simp [entryLeaves, mergedEntry, Tree.leaves]

/-- R269: the number of entries bounds the merges, so from any entries the loop answers a tree. -/
theorem mergeEntries_answers (tie : TieOrder) {n : Nat} {es : List Entry} (hne : es ≠ []) (hn : es.length ≤ n) (counter : Nat) :
    ∃ t, mergeEntries tie n counter es = some t := by
  induction n generalizing es counter with
  | zero => exact absurd (List.length_eq_zero_iff.mp (Nat.le_zero.mp hn)) hne
  | succ n ih =>
    obtain ⟨hnil, -⟩ | ⟨a, -, h⟩ | ⟨a, b, rest, hperm, h⟩ := mergeEntries_cases tie n counter es
    · exact absurd hnil hne
    · exact ⟨_, h⟩
    · have hlen := hperm.length_eq
      rw [h]
      exact ih (List.cons_ne_nil _ _) (by simp only [List.length_cons] at hlen ⊢; omega) _

/-- R270: the answer has the entries' leaves. -/
theorem mergeEntries_leaves {tie : TieOrder} {n counter : Nat} {es : List Entry} {t : Tree} (h : mergeEntries tie n counter es = some t) :
    t.leaves.Perm (entryLeaves es) := by
  induction n generalizing es counter with
  | zero => cases h
  | succ n ih =>
    obtain ⟨-, hmerge⟩ | ⟨a, rfl, hmerge⟩ | ⟨a, b, rest, hperm, hmerge⟩ := mergeEntries_cases tie n counter es <;>
      rw [hmerge] at h
    · cases h
    · cases h
      simp [entryLeaves]
    · have hleaves := ih h
      rw [entryLeaves_mergedEntry] at hleaves
      exact hleaves.trans (entryLeaves_perm hperm.symm)

/-- R270: from two entries or more the answer is a merged one, so a `Node`. -/
theorem mergeEntries_isNode {tie : TieOrder} {n counter : Nat} {es : List Entry} {t : Tree} (h : mergeEntries tie n counter es = some t)
    (hes : 2 ≤ es.length ∨ ∀ e ∈ es, e.tree.isNode = true) : t.isNode = true := by
  induction n generalizing es counter with
  | zero => cases h
  | succ n ih =>
    obtain ⟨-, hmerge⟩ | ⟨a, rfl, hmerge⟩ | ⟨a, b, rest, hperm, hmerge⟩ := mergeEntries_cases tie n counter es <;>
      rw [hmerge] at h
    · cases h
    · cases h
      simpa using hes
    · refine ih h ?_
      cases rest with
      | nil => exact .inr (by simp [mergedEntry, Tree.isNode])
      | cons c rest => exact .inl (by simp)

/-! The builder (R266 to R270). -/

/-- R266, R269: a builder that answers has found two seed entries or more, and answers what their merging does. -/
theorem buildTree_eq_ok {hp : HostParams} {x : List Byte} {t : Tree} {es : List Entry} (hes : seedEntries hp.seedOrder x = es)
    (h : buildTree hp x = .ok t) : 2 ≤ es.length ∧ mergeEntries hp.tieOrder es.length es.length es = some t := by
  simp only [buildTree, hes] at h
  split at h
  · cases h
  next hlen =>
    split at h
    next hmerge =>
      cases h
      exact ⟨not_lt.mp hlen, hmerge⟩
    · cases h

/-- Settles O54: the merge loop keeps the leaves, which are the seed symbols: distinct, and those of the text. -/
theorem builtTreesAreWellFormed : Obligations.BuiltTreesAreWellFormed := by
  intro hp x t h
  obtain ⟨hlen, hmerge⟩ := buildTree_eq_ok rfl h
  have hperm : t.leaves.Perm (seedSymbols hp.seedOrder x) := entryLeaves_seedEntries hp.seedOrder x ▸ mergeEntries_leaves hmerge
  refine ⟨t.wellFormed_iff.mpr ⟨mergeEntries_isNode hmerge (.inl hlen), ?_⟩, fun b => ?_⟩
  · exact hperm.nodup_iff.mpr (seedSymbols_nodup _ _)
  · rw [hperm.mem_iff, mem_seedSymbols]

/-- R266: fewer than two seed symbols. -/
theorem buildTree_insufficient {hp : HostParams} {x : List Byte} (h : (seedSymbols hp.seedOrder x).length < 2) :
    buildTree hp x = .error .insufficientSymbols :=
  if_pos (by rwa [seedEntries_length])

/-- R266: two seed symbols or more. -/
theorem buildTree_answers {hp : HostParams} {x : List Byte} (h : 2 ≤ (seedSymbols hp.seedOrder x).length) :
    ∃ t, buildTree hp x = .ok t := by
  have hlen : 2 ≤ (seedEntries hp.seedOrder x).length := by rwa [seedEntries_length]
  have hne : seedEntries hp.seedOrder x ≠ [] := List.ne_nil_of_length_pos (by omega)
  obtain ⟨t, ht⟩ := mergeEntries_answers hp.tieOrder hne le_rfl (seedEntries hp.seedOrder x).length
  have henough : ¬ (seedEntries hp.seedOrder x).length < minLeaves := not_lt.mpr hlen
  exact ⟨t, by simp only [buildTree, henough, if_false, ht]⟩

/-- R266: two seed symbols are two different symbols of the text. -/
theorem two_le_seedSymbols_iff {order : SeedOrder} {x : List Byte} :
    2 ≤ (seedSymbols order x).length ↔ ∃ a b, a ∈ x ∧ b ∈ x ∧ a ≠ b := by
  rw [← List.toFinset_card_of_nodup (seedSymbols_nodup order x), Nat.succ_le_iff, Finset.one_lt_card]
  simp [mem_seedSymbols]

/-- Settles O53: the number of seed symbols decides, and it is two or more exactly when two symbols differ. -/
theorem builderNeedsTwoDistinctSymbols : Obligations.BuilderNeedsTwoDistinctSymbols := by
  refine ⟨rfl, fun hp x => ⟨fun h => buildTree_answers (two_le_seedSymbols_iff.mpr h), fun h => ?_, ?_⟩⟩
  · refine buildTree_insufficient (not_le.mp fun hlen => ?_)
    obtain ⟨a, b, ha, hb, hab⟩ := two_le_seedSymbols_iff.mp hlen
    exact hab (h a b ha hb)
  · refine buildTree_insufficient (not_le.mp fun hlen => ?_)
    obtain ⟨a, -, ha, -⟩ := two_le_seedSymbols_iff.mp hlen
    cases ha

/-! Issuing commands in order (R261, R262). PEND and RESULT differ from one run of the same commands to the next, and no command's
rule reads either. -/

/-- The state with the command latch, RESULT and BUSY overwritten. -/
def State.relatch (s : State) (w r : Word) (b : Bool) : State := { s with pend := w, result := r, busy := b }

/-- No command's rule reads PEND, RESULT or BUSY, nor writes BUSY. The cases stand together by what their rules check. -/
theorem Committed.relatch {p : Params} {i : Instr} {s u : State} (hc : Committed p i s u) (w r : Word) (b : Bool) :
    ∃ w' r', Committed p i (s.relatch w r b) (u.relatch w' r' b) := by
  cases i with
  | nop | clearErr | treeClear =>
    obtain rfl := hc
    exact ⟨w, r, rfl⟩
  | softReset =>
    obtain rfl := hc
    exact ⟨0, 0, rfl⟩
  | pushSym v | pushBit v | pushByte v | pushLeaf v | treeStore =>
    obtain ⟨hcheck, hroom, rfl⟩ := hc
    exact ⟨w, r, hcheck, hroom, rfl⟩
  | popSym | popByte | popLeaf =>
    obtain ⟨x, rest, hq, rfl⟩ := hc
    exact ⟨w, zextByte x, x, rest, hq, rfl⟩
  | popBit =>
    obtain ⟨x, rest, hq, rfl⟩ := hc
    exact ⟨w, zextBit x, x, rest, hq, rfl⟩
  | treeLoad =>
    obtain ⟨t, bits, hparse, hw, rfl⟩ := hc
    exact ⟨w, r, t, bits, hparse, hw, rfl⟩
  | encode | unpack =>
    obtain ⟨out, hout, hroom, rfl⟩ := hc
    exact ⟨w, r, out, hout, hroom, rfl⟩
  | decode | pack | setFinal v =>
    obtain ⟨hcheck, rfl⟩ := hc
    exact ⟨w, r, hcheck, rfl⟩

/-- R261, R262: a command that leaves no error is issued, whatever the block was doing before. -/
theorem issueChecked_of_runs {p : Params} {i : Instr} {s u : State} (h : Runs p i ((awaitIdle p s).latch (encode i)) u)
    (hu : u.err = false) : issueChecked p i s = .ok u.release := by
  have hstep : stepAt p ((awaitIdle p s).latch (encode i)) = .next u.release :=
    steps_iff.mp (steps_of_runs (State.latch_busy _ _) (decodeInstr_encode i) h)
  have hissue : issue p (encode i) s = u.release := by rw [issue_eq, awaitIdle_of_step hstep]
  have hstatus : (readReg 0x04 u.release).getLsbD 1 = false := by
    rw [readReg, State.statusReg_getLsbD]
    simp [hu]
  simp only [issueChecked, hissue, hstatus, Bool.false_eq_true, if_false]

/-- R102: SOFT_RESET is issued from any state, and leaves the reset state. -/
theorem issueChecked_softReset (p : Params) (s : State) : issueChecked p .softReset s = .ok .reset :=
  issueChecked_of_runs (runs_softReset p _) rfl

/-- On an idle block with no error a command whose rule commits is issued. -/
theorem issueChecked_of_committed {p : Params} {i : Instr} {s u : State} (he : s.err = false) {w r w' r' : Word}
    (hc : Committed p i (s.relatch (encode i) r true) (u.relatch w' r' true)) :
    issueChecked p i (s.relatch w r false) = .ok (u.relatch w' r' false) := by
  have hidle : awaitIdle p (s.relatch w r false) = s.relatch w r false := awaitIdle_of_idle rfl
  refine issueChecked_of_runs (u := u.relatch w' r' true) ?_ (hc.no_error he)
  rw [hidle]
  exact runs_of_no_error he hc

theorem issueSeq_append (p : Params) (is js : List Instr) (s : State) :
    issueSeq p (is ++ js) s = (issueSeq p is s).bind (issueSeq p js) := by
  induction is generalizing s with
  | nil => rfl
  | cons i is ih =>
    rw [List.cons_append, issueSeq, issueSeq]
    cases issueChecked p i s with
    | error e => rfl
    | ok t => exact ih t

/-- The commands issued in order on an idle block, with no block error, lead from `s` to `u`, but for PEND and RESULT. -/
def Issues (p : Params) (is : List Instr) (s u : State) : Prop :=
  ∀ w r, ∃ w' r', issueSeq p is (s.relatch w r false) = .ok (u.relatch w' r' false)

theorem Issues.nil (p : Params) (s : State) : Issues p [] s s := fun w r => ⟨w, r, rfl⟩

theorem Issues.append {p : Params} {is js : List Instr} {s u v : State} (h : Issues p is s u) (h' : Issues p js u v) :
    Issues p (is ++ js) s v := by
  intro w r
  obtain ⟨w₁, r₁, h₁⟩ := h w r
  obtain ⟨w₂, r₂, h₂⟩ := h' w₁ r₁
  exact ⟨w₂, r₂, by rw [issueSeq_append, h₁]; exact h₂⟩

theorem issues_of_committed {p : Params} {i : Instr} {s u : State} (he : s.err = false) (hc : Committed p i s u) :
    Issues p [i] s u := by
  intro w r
  obtain ⟨w', r', hc'⟩ := hc.relatch (encode i) r true
  exact ⟨w', r', by rw [issueSeq, issueChecked_of_committed he hc']; rfl⟩

theorem issues_of_runs {p : Params} {i : Instr} {s u : State} (he : s.err = false) (h : Runs p i s u) (hu : u.err = false) :
    Issues p [i] s u :=
  issues_of_committed he (committed_of_runs he h hu)

/-- R262, R263: both procedures end with TREE_CLEAR. -/
theorem issues_treeClear {p : Params} {s : State} (he : s.err = false) : Issues p [.treeClear] s { s with tree := .empty } :=
  issues_of_committed he rfl

/-- R262, R263: both procedures begin with SOFT_RESET, so what follows runs from the reset state. -/
theorem issueSeq_softReset {p : Params} {is : List Instr} {u : State} (h : Issues p is .reset u) (s : State) :
    ∃ w r, issueSeq p ([.softReset] ++ is) s = .ok (u.relatch w r false) := by
  rw [List.singleton_append, issueSeq, issueChecked_softReset]
  exact h 0 0

/-! Pushing a list and popping a queue (R88, R262, R263). -/

/-- R110: pushes of single elements push the list, where `st q` is the state with the queue at `q`. -/
theorem issues_pushes {α : Type} {p : Params} {command : α → Instr} {st : List α → State} {cap : Nat} {q xs : List α}
    (he : ∀ q, (st q).err = false) (hpush : ∀ q x, q.length + 1 ≤ cap → Committed p (command x) (st q) (st (q ++ [x])))
    (hroom : q.length + xs.length ≤ cap) : Issues p (xs.map command) (st q) (st (q ++ xs)) := by
  induction xs generalizing q with
  | nil => simpa using Issues.nil p (st q)
  | cons x xs ih =>
    rw [List.length_cons] at hroom
    have hx := issues_of_committed (he q) (hpush q x (by omega))
    have hxs := ih (q := q ++ [x]) (by rw [List.length_append, List.length_singleton]; omega)
    rw [List.append_assoc] at hxs
    exact hx.append hxs

/-- R82: a byte as an operand is in range, and the element it pushes is the byte. -/
theorem byte_operand (x : Byte) : (x.setWidth 24).toNat ≤ 255 ∧ (x.setWidth 24).setWidth 8 = x := by
  have hbyte := x.isLt
  constructor
  · rw [BitVec.toNat_setWidth_of_le (by decide)]
    omega
  · simp

section Pushes
variable {p : Params} {s : State} (he : s.err = false)
include he

theorem issues_pushSyms {xs : List Byte} (hroom : s.symq.length + xs.length ≤ p.symqCap) :
    Issues p (pushSyms xs) s { s with symq := s.symq ++ xs } := by
  refine issues_pushes (st := fun q => s.setSymq q) (fun _ => he) (fun q x hq => ?_) hroom
  obtain ⟨hrange, hbyte⟩ := byte_operand x
  exact ⟨hrange, hq, by rw [hbyte]; rfl⟩

theorem issues_pushBytes {xs : List Byte} (hroom : s.byteq.length + xs.length ≤ p.byteqCap) :
    Issues p (pushBytes xs) s { s with byteq := s.byteq ++ xs } := by
  refine issues_pushes (st := fun q => s.setByteq q) (fun _ => he) (fun q x hq => ?_) hroom
  obtain ⟨hrange, hbyte⟩ := byte_operand x
  exact ⟨hrange, hq, by rw [hbyte]; rfl⟩

theorem issues_pushLeaves {xs : List Byte} (hroom : s.leafq.length + xs.length ≤ p.leafqCap) :
    Issues p (pushLeaves xs) s { s with leafq := s.leafq ++ xs } := by
  refine issues_pushes (st := fun q => s.setLeafq q) (fun _ => he) (fun q x hq => ?_) hroom
  obtain ⟨hrange, hbyte⟩ := byte_operand x
  exact ⟨hrange, hq, by rw [hbyte]; rfl⟩

theorem issues_pushBits {bits : List Bit} (hroom : s.bitq.length + bits.length ≤ p.bitqCap) :
    Issues p (pushBits bits) s { s with bitq := s.bitq ++ bits } := by
  refine issues_pushes (st := fun q => s.setBitq q) (fun _ => he) (fun q b hq => ?_) hroom
  cases b with
  | false => exact ⟨by decide, hq, rfl⟩
  | true => exact ⟨by decide, hq, rfl⟩

end Pushes

/-- R115, R262: as many pops as a queue holds answer the queue, where `st q` is the state with the queue at `q`. -/
theorem popMany_drains {p : Params} {i : Instr} {st : List Byte → State} (he : ∀ q, (st q).err = false)
    (hpop : ∀ x q w r, Committed p i ((st (x :: q)).relatch w r true) ((st q).relatch w (zextByte x) true)) (q : List Byte) (w r : Word) :
    ∃ w' r', popMany p i q.length ((st q).relatch w r false) = .ok (q, (st []).relatch w' r' false) := by
  induction q generalizing w r with
  | nil => exact ⟨w, r, rfl⟩
  | cons x q ih =>
    have hx := issueChecked_of_committed (w := w) (he (x :: q)) (hpop x q (encode i) r)
    obtain ⟨w', r', hq⟩ := ih (encode i) (zextByte x)
    have hresult : (readReg 0x0C ((st q).relatch (encode i) (zextByte x) false)).setWidth 8 = x := by
      change (zextByte x).setWidth 8 = x
      simp [zextByte]
    refine ⟨w', r', ?_⟩
    rw [List.length_cons, popMany, hx, Except.bind, hq, Except.bind, hresult]

/-! Compress and decompress on the block (R262, R263). -/

/-- R150, R31: no code is longer than the tree is deep. -/
theorem encodeBits_length_le {t : Tree} {xs : List Byte} {e : List Bit} (h : encodeBits t xs = some e) :
    e.length ≤ t.depth * xs.length := by
  induction xs generalizing e with
  | nil =>
    cases h
    simp
  | cons x xs ih =>
    obtain ⟨c, r, hc, hr, rfl⟩ := encodeBits_cons_eq_some.mp h
    have hcode := Tree.code_length_le_depth hc
    have hrest := ih hr
    rw [List.length_append, List.length_cons, Nat.mul_succ]
    omega

/-- What compress and decompress work with, and the room they need on the block: a text `x`, its codes `e` under the tree `t`, and
the packed bytes of shape and codes with their final valid count. -/
structure Fits (p : Params) (t : Tree) (x : List Byte) (e : List Bit) (bytes : List Byte) (final : Nat) : Prop where
  legal : p.Legal
  wellFormed : t.wellFormed = true
  encodes : encodeBits t x = some e
  packs : packBits (t.shape ++ e) = (bytes, final)
  symqRoom : x.length ≤ p.symqCap
  bitqRoom : (t.shape ++ e).length ≤ p.bitqCap
  byteqRoom : bytes.length ≤ p.byteqCap

/-- 00_scope.md R6: the bounds from MAX_CODE_LEN suffice for any text of the tree's leaves. -/
theorem fits_of_bounds {p : Params} {t : Tree} {x : List Byte} (hp : p.Legal) (hw : t.wellFormed = true) (hx : ∀ b ∈ x, b ∈ t.leaves)
    (hsymq : x.length ≤ p.symqCap) (hbitq : 511 + 255 * x.length ≤ p.bitqCap) (hbyteq : 511 + 255 * x.length ≤ 8 * p.byteqCap) :
    ∃ e bytes final, Fits p t x e bytes final := by
  obtain ⟨e, he⟩ := (encodeBits_some_iff t x).mpr hx
  have hshape := t.shape_length
  have hleaves := (Tree.leaves_bounds hw).2
  have hdepth := t.depth_lt_leaves
  have hcodes : e.length ≤ 255 * x.length := (encodeBits_length_le he).trans (Nat.mul_le_mul_right _ (by omega))
  have hlen : (t.shape ++ e).length ≤ 511 + 255 * x.length := by
    rw [List.length_append]
    omega
  have hbytes : (packBits (t.shape ++ e)).1.length ≤ p.byteqCap := by
    rw [packBits_length]
    omega
  exact ⟨e, _, _, hp, hw, he, rfl, hsymq, hlen.trans hbitq, hbytes⟩

/-- R262: the block in compress from PACK on, with the leaves and bytes not popped yet. -/
def packedState (t : Tree) (leaves bytes : List Byte) (final : Nat) : State :=
  { State.reset with tree := .loaded t, leafq := leaves, byteq := bytes, finalValid := final }

/-- R263: the block in decompress from DECODE on, with the symbols not popped yet. -/
def decodedState (t : Tree) (symbols : List Byte) (final : Nat) : State :=
  { State.reset with tree := .loaded t, symq := symbols, finalValid := final }

/-- R262: the container compress makes of a tree and the packed bytes. -/
def containerOf (t : Tree) (bytes : List Byte) (final : Nat) : Container :=
  { count := t.leaves.length, leaves := t.leaves, final := final, payload := bytes }

section Fits
variable {p : Params} {t : Tree} {x : List Byte} {e : List Bit} {bytes : List Byte} {final : Nat} (h : Fits p t x e bytes final)
include h

theorem Fits.final_bounds : 1 ≤ final ∧ final ≤ 8 := by
  simpa only [h.packs] using packBits_final_bounds (t.shape ++ e)

theorem Fits.unpacks : unpackBits bytes final = some (t.shape ++ e) := by
  simpa only [h.packs] using unpackBits_packBits (t.shape ++ e)

theorem Fits.container_serializable : (containerOf t bytes final).Serializable := by
  have hne : bytes ≠ [] := by
    simpa only [h.packs] using packBits_ne_nil (bits := t.shape ++ e) (List.append_ne_nil_of_left_ne_nil t.shape_ne_nil e)
  exact ⟨Tree.leaves_bounds h.wellFormed, rfl, h.final_bounds, List.length_pos_iff.mpr hne⟩

/-- R262: compress's commands up to PACK, one at a time: BITQ and LEAFQ take the tree, TREE_LOAD drains them, TREE_STORE fills them
again, and SYMQ's codes follow the shape. -/
theorem Fits.issues_compress :
    Issues p (pushBits t.shape ++ pushLeaves t.leaves ++ [.treeLoad, .treeStore] ++ pushSyms x ++ [.encode, .pack]) .reset
      (packedState t t.leaves bytes final) := by
  obtain ⟨hshapeRoom, hleavesRoom⟩ := Tree.flatten_fits h.wellFormed h.legal
  have hbits : Issues p (pushBits t.shape) .reset { State.reset with bitq := t.shape } :=
    issues_pushBits rfl (by simpa using hshapeRoom)
  have hleaves : Issues p (pushLeaves t.leaves) { State.reset with bitq := t.shape }
      { State.reset with bitq := t.shape, leafq := t.leaves } :=
    issues_pushLeaves rfl (by simpa using hleavesRoom)
  have hload : Issues p [.treeLoad] { State.reset with bitq := t.shape, leafq := t.leaves } { State.reset with tree := .loaded t } :=
    issues_of_runs rfl (runs_treeLoad rfl h.wellFormed (List.append_nil _).symm rfl p) rfl
  have hstore : Issues p [.treeStore] { State.reset with tree := .loaded t }
      { State.reset with tree := .loaded t, bitq := t.shape, leafq := t.leaves } :=
    issues_of_runs rfl (runs_treeStore rfl rfl (by simpa using hshapeRoom) (by simpa using hleavesRoom)) rfl
  have hsyms : Issues p (pushSyms x) { State.reset with tree := .loaded t, bitq := t.shape, leafq := t.leaves }
      { State.reset with tree := .loaded t, bitq := t.shape, leafq := t.leaves, symq := x } :=
    issues_pushSyms rfl (by simpa using h.symqRoom)
  have hencode : Issues p [.encode] { State.reset with tree := .loaded t, bitq := t.shape, leafq := t.leaves, symq := x }
      { State.reset with tree := .loaded t, bitq := t.shape ++ e, leafq := t.leaves } :=
    issues_of_runs rfl (runs_encode rfl h.encodes (by simpa using h.bitqRoom)) rfl
  have hpack : Issues p [.pack] { State.reset with tree := .loaded t, bitq := t.shape ++ e, leafq := t.leaves }
      (packedState t t.leaves bytes final) :=
    issues_of_committed rfl ⟨by simpa [h.packs] using h.byteqRoom, by simp only [h.packs]; rfl⟩
  exact (((hbits.append hleaves).append (hload.append hstore)).append hsyms).append (hencode.append hpack)

/-- R263: decompress's commands up to DECODE, one at a time: UNPACK gives the shape and the codes back, TREE_LOAD takes the shape, and
the codes decode to the text. -/
theorem Fits.issues_decompress :
    Issues p (pushLeaves t.leaves ++ pushBytes bytes ++ [.setFinal (BitVec.ofNat 24 final)] ++ unpackDecode) .reset
      (decodedState t x final) := by
  obtain ⟨-, hleavesRoom⟩ := Tree.flatten_fits h.wellFormed h.legal
  have hfinalRange := h.final_bounds
  have hfinal : (BitVec.ofNat 24 final).toNat = final := by rw [BitVec.toNat_ofNat, Nat.mod_eq_of_lt (by omega)]
  have hleaves : Issues p (pushLeaves t.leaves) .reset { State.reset with leafq := t.leaves } :=
    issues_pushLeaves rfl (by simpa using hleavesRoom)
  have hbytes : Issues p (pushBytes bytes) { State.reset with leafq := t.leaves } { State.reset with leafq := t.leaves, byteq := bytes } :=
    issues_pushBytes rfl (by simpa using h.byteqRoom)
  have hset : Issues p [.setFinal (BitVec.ofNat 24 final)] { State.reset with leafq := t.leaves, byteq := bytes }
      { State.reset with leafq := t.leaves, byteq := bytes, finalValid := final } :=
    issues_of_committed rfl ⟨by rwa [hfinal], by rw [hfinal]; rfl⟩
  have hunpack : Issues p [.unpack] { State.reset with leafq := t.leaves, byteq := bytes, finalValid := final }
      { State.reset with leafq := t.leaves, bitq := t.shape ++ e, finalValid := final } :=
    issues_of_runs rfl (runs_unpack rfl h.unpacks (by simpa using h.bitqRoom)) rfl
  have hload : Issues p [.treeLoad] { State.reset with leafq := t.leaves, bitq := t.shape ++ e, finalValid := final }
      { State.reset with tree := .loaded t, bitq := e, finalValid := final } :=
    issues_of_runs rfl (runs_treeLoad rfl h.wellFormed rfl rfl p) rfl
  have hdecode : Issues p [.decode] { State.reset with tree := .loaded t, bitq := e, finalValid := final } (decodedState t x final) := by
    have hout : (TreeReg.loaded t).decodeSymbols e = (x, 0) := decodeBits_encodeBits h.wellFormed h.encodes
    have hroom : ([] : List Byte).length + x.length ≤ p.symqCap := by simpa using h.symqRoom
    exact issues_of_runs rfl (runs_decode (out := x) (k := 0) rfl hout hroom) rfl
  exact ((hleaves.append hbytes).append hset).append (hunpack.append (hload.append hdecode))

/-- R262: from any state compress makes the container of the tree and the packed bytes. -/
theorem Fits.compressOnBlock_eq (s : State) : ∃ s', compressOnBlock p t x s = .ok (containerOf t bytes final, s') := by
  obtain ⟨-, -, ⟨-, hbyteqCap⟩, ⟨-, hleafqCap⟩, -⟩ := h.legal
  obtain ⟨-, hleavesRoom⟩ := Tree.flatten_fits h.wellFormed h.legal
  obtain ⟨w, r, hrun⟩ := issueSeq_softReset h.issues_compress s
  obtain ⟨w₁, r₁, hleaves⟩ := popMany_drains (p := p) (i := .popLeaf) (st := fun q => packedState t q bytes final) (fun _ => rfl)
    (fun x q _ _ => ⟨x, q, rfl, rfl⟩) t.leaves w r
  obtain ⟨w₂, r₂, hbytes⟩ := popMany_drains (p := p) (i := .popByte) (st := fun q => packedState t [] q final) (fun _ => rfl)
    (fun x q _ _ => ⟨x, q, rfl, rfl⟩) bytes w₁ r₁
  obtain ⟨w₃, r₃, hclear⟩ := issues_treeClear (p := p) (s := packedState t [] [] final) rfl w₂ r₂
  have hcount : (readReg 0x20 ((packedState t t.leaves bytes final).relatch w r false)).toNat = t.leaves.length :=
    countReg_toNat hleavesRoom hleafqCap
  have hfinal : (readReg 0x10 ((packedState t [] bytes final).relatch w₁ r₁ false)).toNat = final := readReg_final h.final_bounds
  have hsize : (readReg 0x1C ((packedState t [] bytes final).relatch w₁ r₁ false)).toNat = bytes.length :=
    countReg_toNat h.byteqRoom hbyteqCap
  refine ⟨{ packedState t [] [] final with tree := .empty }.relatch w₃ r₃ false, ?_⟩
  simp only [List.append_assoc] at hrun
  simp only [compressOnBlock, List.append_assoc, hrun, Except.bind, hcount, hleaves, hfinal, hsize, hbytes, hclear, containerOf]

/-- R263: from any state decompress answers the text of the container. -/
theorem Fits.decompressOnBlock_eq (s : State) : ∃ s', decompressOnBlock p (containerOf t bytes final) s = .ok (x, s') := by
  obtain ⟨⟨-, hsymqCap⟩, -⟩ := h.legal
  obtain ⟨w, r, hrun⟩ := issueSeq_softReset h.issues_decompress s
  obtain ⟨w₁, r₁, hsyms⟩ := popMany_drains (p := p) (i := .popSym) (st := fun q => decodedState t q final) (fun _ => rfl)
    (fun x q _ _ => ⟨x, q, rfl, rfl⟩) x w r
  obtain ⟨w₂, r₂, hclear⟩ := issues_treeClear (p := p) (s := decodedState t [] final) rfl w₁ r₁
  have hcount : (readReg 0x14 ((decodedState t x final).relatch w r false)).toNat = x.length := countReg_toNat h.symqRoom hsymqCap
  refine ⟨{ decodedState t [] final with tree := .empty }.relatch w₂ r₂ false, ?_⟩
  simp only [List.append_assoc] at hrun
  simp only [decompressOnBlock, containerOf, List.append_assoc, hrun, Except.bind, hcount, hsyms, hclear]

end Fits

/-- Settles O55: the container made on the block is the one parsed back, and it holds the tree and the codes of the folded text. -/
theorem decompressOfCompressIsTheFoldedText : Obligations.DecompressOfCompressIsTheFoldedText := by
  intro p hp text s s' hlegal hdistinct hsymq hbitq hbyteq
  rw [← foldText_length hp text] at hsymq hbitq hbyteq
  obtain ⟨t, ht⟩ := buildTree_answers (two_le_seedSymbols_iff.mpr hdistinct)
  obtain ⟨hw, hleaves⟩ := builtTreesAreWellFormed hp _ t ht
  obtain ⟨e, bytes, final, hfits⟩ := fits_of_bounds hlegal hw (fun b hb => (hleaves b).mpr hb) hsymq hbitq hbyteq
  obtain ⟨s₁, hcompress⟩ := hfits.compressOnBlock_eq s
  obtain ⟨s₂, hdecompress⟩ := hfits.decompressOnBlock_eq s'
  have hparse := containerRoundTrips hp.magic _ hfits.container_serializable
  refine ⟨serialize hp.magic (containerOf t bytes final), s₁, s₂, ?_, ?_⟩
  · simp only [compress, ht, Except.mapError, Except.bind, hcompress]
  · simp only [decompress, hparse, Except.mapError, Except.bind, hdecompress]

end Sys2Proof.Machine
end
